-- ==== Sys2Proof/Word.lean ====
section
/-! DEFINITION. The word type of the hardware's scalar ports (30_encoding.md rule R51). -/

namespace Sys2Proof

/-- An 8-bit unsigned port value: indices, bit counts, integers, element values, codewords (R51). -/
abbrev Byte := BitVec 8

end Sys2Proof
end

