-- ==== Sys2Proof/Syntax.lean ====
section
/-! DEFINITION. The values a caller can present: the wires of the input ports (R49, R50, R51 and the
port lists R84, R105, R114, R126, R142), the matrix and sequence values they stand for (R16), and
the fourteen operations of the operation table (R52), one constructor each. -/

namespace Sys2Proof

/-! ## Port bundles, wire by wire -/

/-- The bit-sequence bundle `SEQ` (R49): `e[i]` is the wire `SEQ.e<i>`. -/
structure SeqWires where
  present : Bool
  len     : Byte
  e       : Vector Bool 8
  deriving DecidableEq, Repr

/-- The matrix bundle `MAT` (R50): `e[r][c]` is the wire `MAT.e[r][c]`. -/
structure MatWires where
  rows : BitVec 4
  cols : BitVec 4
  e    : Vector (Vector Bool 8) 8
  deriving DecidableEq, Repr

/-- The raw operand bundle `ROWS` of MAT.CONSTRUCT (R50). -/
structure RowsWires where
  count : Byte
  row   : Vector SeqWires 8
  deriving DecidableEq, Repr

/-- Every input port of the five modules but the operation select (R84, R105, R114, R126, R142). -/
structure InPorts where
  rowsIn : RowsWires
  a      : MatWires
  b      : MatWires
  r      : Byte
  c      : Byte
  v      : Byte
  value  : Byte
  n      : Byte
  seqIn  : SeqWires
  index  : BitVec 4
  srcIn  : Byte
  cwIn   : Byte
  deriving DecidableEq, Repr

/-- What a caller presents for one transaction: the operation code `cmd` (R52) and the port values it
holds for the transaction (R19, R171). -/
structure Request where
  cmd   : Byte
  ports : InPorts
  deriving DecidableEq, Repr

/-! ## Operand values -/

/-- A binary matrix value (R16): `elems` lists the rows, each row its elements by column.
`Matrix.wf` (WellFormed.lean) is the shape invariant. -/
structure Matrix where
  rows  : Nat
  cols  : Nat
  elems : List (List Bool)
  deriving DecidableEq, Repr

/-- What the `SEQ` operand of BP.PACK can say (R49, R101): no sequence at all, a sequence of at most
eight elements, or a length above 8 whose elements the bundle cannot carry. -/
inductive PackOperand where
  | absent
  | bits    (b : List Bool)
  | tooLong (len : Byte)
  deriving DecidableEq, Repr

/-! ## Operations -/

/-- The five modules (R2), in the order of their codes (R52). -/
inductive Module where
  | binaryMatrix
  | bitPacker
  | syndromeTable
  | encoder
  | decoder
  deriving DecidableEq, Repr

/-- The operations of R52, in its order, each with the operands its rule lists. -/
inductive Instr where
  | matConstruct (rows : List (List Bool))     -- MAT.CONSTRUCT, R71
  | matRows      (a : Matrix)                  -- MAT.ROWS, R72
  | matCols      (a : Matrix)                  -- MAT.COLS, R73
  | matGet       (a : Matrix) (r c : Byte)     -- MAT.GET, R74
  | matSet       (a : Matrix) (r c v : Byte)   -- MAT.SET, R75
  | matGetRow    (a : Matrix) (r : Byte)       -- MAT.GETROW, R76
  | matMul       (a b : Matrix)                -- MAT.MUL, R77
  | matAdd       (a b : Matrix)                -- MAT.ADD, R78
  | matEq        (a b : Matrix)                -- MAT.EQ, R79
  | bpUnpack     (value n : Byte)              -- BP.UNPACK, R100
  | bpPack       (seq : PackOperand)           -- BP.PACK, R101
  | synLookup    (index : BitVec 4)            -- SYN.LOOKUP, R110
  | hamEncode    (src : Byte)                  -- HAM.ENCODE, R120
  | hamDecode    (cw : Byte)                   -- HAM.DECODE, R130
  deriving DecidableEq, Repr

end Sys2Proof
end

