-- ==== Sys2Proof/Config.lean ====
section
/-! DEFINITION. What is fixed for this hardware: the parameters of R6 and the literals of the three
constants (R12, R13, R14; the spec's own choices D1, D2, D3, log entry 1). -/

namespace Sys2Proof.Config

/-- `MAX_DIM` (R6): the largest row count and column count of a matrix value. -/
abbrev maxDim : Nat := 8

/-- A row of bits written as the spec prints it, column 0 first. -/
def bits (row : List Nat) : List Bool := row.map (· == 1)

/-- The generator matrix `G` (R12). -/
def g : Matrix where
  rows  := 4
  cols  := 8
  elems := [bits [1, 0, 0, 0, 0, 1, 1, 1],
            bits [0, 1, 0, 0, 1, 0, 1, 1],
            bits [0, 0, 1, 0, 1, 1, 0, 1],
            bits [0, 0, 0, 1, 1, 1, 1, 0]]

/-- The transposed parity-check matrix `H_TR` (R13). -/
def hTr : Matrix where
  rows  := 8
  cols  := 4
  elems := [bits [0, 1, 1, 1],
            bits [1, 0, 1, 1],
            bits [1, 1, 0, 1],
            bits [1, 1, 1, 0],
            bits [1, 0, 0, 0],
            bits [0, 1, 0, 0],
            bits [0, 0, 1, 0],
            bits [0, 0, 0, 1]]

/-- One entry of the syndrome table: a 1x8 row vector. -/
def entry (row : List Nat) : Matrix := ⟨1, 8, [bits row]⟩

/-- The syndrome table `SYN`, entries 0 to 15 (R14). -/
def syn : Vector Matrix 16 :=
  #v[entry [0, 0, 0, 0, 0, 0, 0, 0],
     entry [0, 0, 0, 0, 0, 0, 0, 1],
     entry [0, 0, 0, 0, 0, 0, 1, 0],
     entry [0, 0, 0, 0, 0, 0, 1, 1],
     entry [0, 0, 0, 0, 0, 1, 0, 0],
     entry [0, 0, 0, 0, 0, 1, 0, 1],
     entry [0, 0, 0, 0, 0, 1, 1, 0],
     entry [1, 0, 0, 0, 0, 0, 0, 0],
     entry [0, 0, 0, 0, 1, 0, 0, 0],
     entry [0, 0, 0, 0, 1, 0, 0, 1],
     entry [0, 0, 0, 0, 1, 0, 1, 0],
     entry [0, 1, 0, 0, 0, 0, 0, 0],
     entry [0, 0, 0, 0, 1, 1, 0, 0],
     entry [0, 0, 1, 0, 0, 0, 0, 0],
     entry [0, 0, 0, 1, 0, 0, 0, 0],
     entry [0, 0, 0, 1, 0, 0, 0, 1]]

end Sys2Proof.Config
end

