-- ==== Sys2Proof/WellFormed.lean ====
section
/-! DEFINITION. Which instruction terms a caller can present: the operands are values of the port
bundles (R49, R50, R56). -/

namespace Sys2Proof

/-- The shape invariant of a matrix value (R16, R50): 1 to MAX_DIM rows and columns, rectangular. -/
def Matrix.wf (m : Matrix) : Bool :=
  decide (1 ≤ m.rows) && decide (m.rows ≤ Config.maxDim) &&
  decide (1 ≤ m.cols) && decide (m.cols ≤ Config.maxDim) &&
  decide (m.elems.length = m.rows) && m.elems.all (fun row => decide (row.length = m.cols))

/-- The raw rows a `ROWS` bundle can carry (R50): at most MAX_DIM rows of at most MAX_DIM elements.
No rows, empty rows and ragged rows can be presented: they are MAT.CONSTRUCT's failures (R71). -/
def rowsWithinMaxDim (rows : List (List Bool)) : Bool :=
  decide (rows.length ≤ Config.maxDim) && rows.all (fun row => decide (row.length ≤ Config.maxDim))

/-- The `SEQ` operand of BP.PACK (R49): elements only up to eight, a bare length only above eight. -/
def PackOperand.wf : PackOperand → Bool
  | .absent => true
  | .bits b => decide (b.length ≤ 8)
  | .tooLong len => decide (8 < len.toNat)

def Instr.wf : Instr → Bool
  | .matConstruct rows => rowsWithinMaxDim rows
  | .matRows a         => a.wf
  | .matCols a         => a.wf
  | .matGet a _ _      => a.wf
  | .matSet a _ _ _    => a.wf
  | .matGetRow a _     => a.wf
  | .matMul a b        => a.wf && b.wf
  | .matAdd a b        => a.wf && b.wf
  | .matEq a b         => a.wf && b.wf
  | .bpUnpack _ _      => true
  | .bpPack seq        => seq.wf
  | .synLookup _       => true
  | .hamEncode _       => true
  | .hamDecode _       => true

/-- The operands are values that the ports can carry. -/
abbrev Instr.WellFormed (i : Instr) : Prop := i.wf = true

end Sys2Proof
end

