-- ==== Sys2Proof/Machine/Gf2.lean ====
section
/-! DEFINITION. Elements of a matrix value and sums over GF(2) (R7, R16, R70): the primitives that
every matrix operation is written with. -/

namespace Sys2Proof

/-- `M(r,c)`, the element in row r and column c (R7). Outside the shape there is no element; every
operation asks only inside it. -/
def Matrix.bit (m : Matrix) (r c : Nat) : Bool := (m.elems.getD r []).getD c false

/-- The matrix of the given shape whose element (r,c) is `f r c`. -/
def Matrix.ofFn (rows cols : Nat) (f : Nat → Nat → Bool) : Matrix where
  rows  := rows
  cols  := cols
  elems := (List.range rows).map fun r => (List.range cols).map fun c => f r c

/-- Row r of a matrix, column 0 first. -/
def Matrix.rowBits (m : Matrix) (r : Nat) : List Bool := (List.range m.cols).map fun c => m.bit r c

/-- `XOR_{k=0..n-1} f(k)`; 0 over the empty range (R7, R70). -/
def xorSum : Nat → (Nat → Bool) → Bool
  | 0, _ => false
  | n + 1, f => xorSum n f ^^ f n

end Sys2Proof
end

