-- ==== Sys2Proof/Decode.lean ====
section
/-! DEFINITION. From the operation code and the input-port wires to an operation with its operand
values, and back (R49, R50, R51, R52, R55, R56, R57), and the byte spelling of one transaction
(R59). Total: what is outside the spec is rejected by name. -/

namespace Sys2Proof

/-- Why a presented transaction has no meaning: each is outside the spec and refused (R55, R56, R168),
which is safe. -/
inductive DecodeError where
  /-- `cmd` is not in the table of R52 (R55). -/
  | reservedCommand (cmd : Byte)
  /-- A `MAT` bundle that an operation reads has `rows` or `cols` 0 or above MAX_DIM (R50, R56). -/
  | notAMatrix (rows cols : BitVec 4)
  /-- `ROWS.count` is above MAX_DIM (R50, R71). -/
  | tooManyRows (count : Byte)
  /-- A row bundle of `ROWS` has a length above MAX_DIM (R50, R56, R71). -/
  | rowTooLong (len : Byte)
  /-- A row bundle of `ROWS` has `present = 0`, which R50 excludes (log entry 6). -/
  | rowAbsent
  /-- The bytes of a script line end before its operands do (R59). -/
  | lineTooShort
  /-- A byte of a script line is not a value of the port it stands for (R59, log entry 5). -/
  | notAPortValue (b : Byte)
  deriving DecidableEq, Repr

/-! ## Reading the bundles -/

/-- The wire with number i of a group of eight. -/
def wireAt (w : Vector Bool 8) (i : Nat) : Bool := w.toList.getD i false

/-- The elements on the wires before `len`; wires at or past `len` are ignored (R49). -/
def SeqWires.elements (w : SeqWires) : List Bool :=
  (List.range w.len.toNat).map fun i => wireAt w.e i

/-- The `SEQ` operand of BP.PACK (R49, R101). -/
def SeqWires.toPackOperand (w : SeqWires) : PackOperand :=
  if !w.present then .absent
  else if 8 < w.len.toNat then .tooLong w.len
  else .bits w.elements

/-- The matrix on a `MAT` bundle; wires outside the shape are ignored (R50). -/
def MatWires.toMatrix (w : MatWires) : Except DecodeError Matrix :=
  if 1 ≤ w.rows.toNat ∧ w.rows.toNat ≤ Config.maxDim ∧
     1 ≤ w.cols.toNat ∧ w.cols.toNat ≤ Config.maxDim then
    .ok (Matrix.ofFn w.rows.toNat w.cols.toNat fun r c =>
      wireAt (w.e.toList.getD r (Vector.replicate 8 false)) c)
  else .error (.notAMatrix w.rows w.cols)

/-- One row bundle of a `ROWS` bundle (R50, R56). -/
def SeqWires.toRow (w : SeqWires) : Except DecodeError (List Bool) :=
  if !w.present then .error .rowAbsent
  else if Config.maxDim < w.len.toNat then .error (.rowTooLong w.len)
  else .ok w.elements

/-- The rows read from a list of `SEQ` bundles, in order. -/
def rowsOf : List SeqWires → Except DecodeError (List (List Bool))
  | [] => .ok []
  | w :: ws => do
    let row ← w.toRow
    let rows ← rowsOf ws
    return row :: rows

/-- The raw rows on a `ROWS` bundle: all eight row bundles must be legal (R50, R56), and the first `count`
are the rows (R71). -/
def RowsWires.toRows (w : RowsWires) : Except DecodeError (List (List Bool)) :=
  if Config.maxDim < w.count.toNat then .error (.tooManyRows w.count)
  else do
    let rows ← rowsOf w.row.toList
    return rows.take w.count.toNat

/-! ## The operation table -/

/-- The operation that `cmd` selects, with its operands read from the ports its rule lists; the other
ports are ignored (R52, R55, R84). -/
def decode (cmd : Byte) (p : InPorts) : Except DecodeError Instr :=
  match cmd.toNat with
  | 0x00 => do return .matConstruct (← p.rowsIn.toRows)
  | 0x01 => do return .matRows (← p.a.toMatrix)
  | 0x02 => do return .matCols (← p.a.toMatrix)
  | 0x03 => do return .matGet (← p.a.toMatrix) p.r p.c
  | 0x04 => do return .matSet (← p.a.toMatrix) p.r p.c p.v
  | 0x05 => do return .matGetRow (← p.a.toMatrix) p.r
  | 0x06 => do return .matMul (← p.a.toMatrix) (← p.b.toMatrix)
  | 0x07 => do return .matAdd (← p.a.toMatrix) (← p.b.toMatrix)
  | 0x08 => do return .matEq (← p.a.toMatrix) (← p.b.toMatrix)
  | 0x10 => .ok (.bpUnpack p.value p.n)
  | 0x11 => .ok (.bpPack p.seqIn.toPackOperand)
  | 0x20 => .ok (.synLookup p.index)
  | 0x30 => .ok (.hamEncode p.srcIn)
  | 0x40 => .ok (.hamDecode p.cwIn)
  | _ => .error (.reservedCommand cmd)

/-! ## The encoder -/

/-- A present sequence of at most eight elements, the other wires 0 (R49). -/
def SeqWires.ofBits (b : List Bool) : SeqWires where
  present := true
  len     := BitVec.ofNat 8 b.length
  e       := Vector.ofFn fun i => b.getD i false

/-- A matrix value on the wires of a `MAT` bundle, the wires outside the shape 0 (R50). -/
def MatWires.ofMatrix (m : Matrix) : MatWires where
  rows := BitVec.ofNat 4 m.rows
  cols := BitVec.ofNat 4 m.cols
  e    := Vector.ofFn fun r => Vector.ofFn fun c =>
    decide (r.val < m.rows) && decide (c.val < m.cols) && m.bit r c

/-- Raw rows on a `ROWS` bundle; the row bundles at or past `count` are present, as R50 says, and empty (log
entry 4). -/
def RowsWires.ofRows (rows : List (List Bool)) : RowsWires where
  count := BitVec.ofNat 8 rows.length
  row   := Vector.ofFn fun i => SeqWires.ofBits (rows.getD i [])

/-- The wires of BP.PACK's operand (R49). -/
def PackOperand.wires : PackOperand → SeqWires
  | .absent => ⟨false, 0, Vector.replicate 8 false⟩
  | .bits b => SeqWires.ofBits b
  | .tooLong len => ⟨true, len, Vector.replicate 8 false⟩

/-- The smallest legal value on every input port: what stands on the ports an operation does not list
(log entry 4). -/
def InPorts.idle : InPorts where
  rowsIn := RowsWires.ofRows [[false]]
  a      := MatWires.ofMatrix ⟨1, 1, [[false]]⟩
  b      := MatWires.ofMatrix ⟨1, 1, [[false]]⟩
  r      := 0
  c      := 0
  v      := 0
  value  := 0
  n      := 0
  seqIn  := SeqWires.ofBits []
  index  := 0
  srcIn  := 0
  cwIn   := 0

/-- The operation code of R52. -/
def Instr.cmd : Instr → Byte
  | .matConstruct _ => 0x00
  | .matRows _      => 0x01
  | .matCols _      => 0x02
  | .matGet _ _ _   => 0x03
  | .matSet _ _ _ _ => 0x04
  | .matGetRow _ _  => 0x05
  | .matMul _ _     => 0x06
  | .matAdd _ _     => 0x07
  | .matEq _ _      => 0x08
  | .bpUnpack _ _   => 0x10
  | .bpPack _       => 0x11
  | .synLookup _    => 0x20
  | .hamEncode _    => 0x30
  | .hamDecode _    => 0x40

/-- The module whose operation it is (R2, R52). -/
def Instr.module : Instr → Module
  | .matConstruct _ => .binaryMatrix
  | .matRows _      => .binaryMatrix
  | .matCols _      => .binaryMatrix
  | .matGet _ _ _   => .binaryMatrix
  | .matSet _ _ _ _ => .binaryMatrix
  | .matGetRow _ _  => .binaryMatrix
  | .matMul _ _     => .binaryMatrix
  | .matAdd _ _     => .binaryMatrix
  | .matEq _ _      => .binaryMatrix
  | .bpUnpack _ _   => .bitPacker
  | .bpPack _       => .bitPacker
  | .synLookup _    => .syndromeTable
  | .hamEncode _    => .encoder
  | .hamDecode _    => .decoder

/-- `cmd[7:4]`, the module code of R52. -/
def Module.code : Module → BitVec 4
  | .binaryMatrix  => 0
  | .bitPacker     => 1
  | .syndromeTable => 2
  | .encoder       => 3
  | .decoder       => 4

/-- The fourteen operation codes that the table of R52 lists; every other one is reserved (R55). -/
def listedCommands : List Byte :=
  [0x00, 0x01, 0x02, 0x03, 0x04, 0x05, 0x06, 0x07, 0x08, 0x10, 0x11, 0x20, 0x30, 0x40]

/-- The port values that present an operation's operands. -/
def Instr.ports : Instr → InPorts
  | .matConstruct rows => { InPorts.idle with rowsIn := RowsWires.ofRows rows }
  | .matRows a         => { InPorts.idle with a := MatWires.ofMatrix a }
  | .matCols a         => { InPorts.idle with a := MatWires.ofMatrix a }
  | .matGet a r c      => { InPorts.idle with a := MatWires.ofMatrix a, r := r, c := c }
  | .matSet a r c v    => { InPorts.idle with a := MatWires.ofMatrix a, r := r, c := c, v := v }
  | .matGetRow a r     => { InPorts.idle with a := MatWires.ofMatrix a, r := r }
  | .matMul a b        => { InPorts.idle with a := MatWires.ofMatrix a, b := MatWires.ofMatrix b }
  | .matAdd a b        => { InPorts.idle with a := MatWires.ofMatrix a, b := MatWires.ofMatrix b }
  | .matEq a b         => { InPorts.idle with a := MatWires.ofMatrix a, b := MatWires.ofMatrix b }
  | .bpUnpack value n  => { InPorts.idle with value := value, n := n }
  | .bpPack seq        => { InPorts.idle with seqIn := seq.wires }
  | .synLookup index   => { InPorts.idle with index := index }
  | .hamEncode src     => { InPorts.idle with srcIn := src }
  | .hamDecode cw      => { InPorts.idle with cwIn := cw }

/-- The transaction that presents an operation (R52: `cmd` followed by the operand bundles). -/
def encode (i : Instr) : Request := ⟨i.cmd, i.ports⟩

/-! ## Script lines as bytes (R59)

"The encoding of a line is its `cmd` byte followed by its operand values in the order written." The
spec spells scalar operands as bytes; the byte layout of the bundles is this model's (log entry 5):
`SEQ` is `present`, `len`, the eight wires; `MAT` is `rows` and `cols` in one byte, then a byte for
each of the eight rows of wires; `ROWS` is `count`, then eight `SEQ`. Wire 0 is bit 7. -/

/-- Eight wires as a byte, wire 0 the most significant bit. -/
def wiresToByte (w : Vector Bool 8) : Byte :=
  w.toList.foldl (fun acc x => (acc <<< 1) ||| (BitVec.ofBool x).setWidth 8) 0

/-- A byte as eight wires, wire 0 the most significant bit. -/
def byteToWires (b : Byte) : Vector Bool 8 := Vector.ofFn fun i => b.getLsbD (7 - i)

def SeqWires.toBytes (w : SeqWires) : List Byte :=
  [(BitVec.ofBool w.present).setWidth 8, w.len, wiresToByte w.e]

def MatWires.toBytes (w : MatWires) : List Byte :=
  (w.rows ++ w.cols) :: w.e.toList.map wiresToByte

def RowsWires.toBytes (w : RowsWires) : List Byte :=
  w.count :: w.row.toList.flatMap SeqWires.toBytes

/-- The bytes of the line that presents an operation. -/
def Instr.lineBytes (i : Instr) : List Byte :=
  let p := i.ports
  i.cmd :: match i with
    | .matConstruct _ => p.rowsIn.toBytes
    | .matRows _      => p.a.toBytes
    | .matCols _      => p.a.toBytes
    | .matGet _ _ _   => p.a.toBytes ++ [p.r, p.c]
    | .matSet _ _ _ _ => p.a.toBytes ++ [p.r, p.c, p.v]
    | .matGetRow _ _  => p.a.toBytes ++ [p.r]
    | .matMul _ _     => p.a.toBytes ++ p.b.toBytes
    | .matAdd _ _     => p.a.toBytes ++ p.b.toBytes
    | .matEq _ _      => p.a.toBytes ++ p.b.toBytes
    | .bpUnpack _ _   => [p.value, p.n]
    | .bpPack _       => p.seqIn.toBytes
    | .synLookup _    => [p.index.setWidth 8]
    | .hamEncode _    => [p.srcIn]
    | .hamDecode _    => [p.cwIn]

/-- A byte read from the front of a byte list, with the bytes that follow it. -/
def readByte : List Byte → Except DecodeError (Byte × List Byte)
  | [] => .error .lineTooShort
  | b :: rest => .ok (b, rest)

def readFlag (bytes : List Byte) : Except DecodeError (Bool × List Byte) := do
  let (b, rest) ← readByte bytes
  if b = 0 then return (false, rest)
  else if b = 1 then return (true, rest)
  else .error (.notAPortValue b)

def readSeq (bytes : List Byte) : Except DecodeError (SeqWires × List Byte) := do
  let (present, rest) ← readFlag bytes
  let (len, rest) ← readByte rest
  let (e, rest) ← readByte rest
  return (⟨present, len, byteToWires e⟩, rest)

/-- `n` values read one after another. -/
def readMany {α : Type} (read : List Byte → Except DecodeError (α × List Byte)) :
    Nat → List Byte → Except DecodeError (List α × List Byte)
  | 0, bytes => .ok ([], bytes)
  | n + 1, bytes => do
    let (x, rest) ← read bytes
    let (xs, rest) ← readMany read n rest
    return (x :: xs, rest)

def readMat (bytes : List Byte) : Except DecodeError (MatWires × List Byte) := do
  let (shape, rest) ← readByte bytes
  let (rows, rest) ← readMany readByte 8 rest
  return (⟨shape.extractLsb' 4 4, shape.extractLsb' 0 4,
    Vector.ofFn fun r => byteToWires (rows.getD r 0)⟩, rest)

def readRows (bytes : List Byte) : Except DecodeError (RowsWires × List Byte) := do
  let (count, rest) ← readByte bytes
  let (rows, rest) ← readMany readSeq 8 rest
  return (⟨count, Vector.ofFn fun i => rows.getD i (SeqWires.ofBits [])⟩, rest)

def readIndex (bytes : List Byte) : Except DecodeError (BitVec 4 × List Byte) := do
  let (b, rest) ← readByte bytes
  if b.toNat < 16 then return (b.setWidth 4, rest) else .error (.notAPortValue b)

/-- The transaction that the first line of a byte script presents, and the bytes after it; the ports
the operation does not list stand idle. -/
def readRequest (bytes : List Byte) : Except DecodeError (Request × List Byte) := do
  let (cmd, rest) ← readByte bytes
  let idle := InPorts.idle
  match cmd.toNat with
  | 0x00 => do
    let (rows, rest) ← readRows rest
    return (⟨cmd, { idle with rowsIn := rows }⟩, rest)
  | 0x01 | 0x02 => do
    let (a, rest) ← readMat rest
    return (⟨cmd, { idle with a := a }⟩, rest)
  | 0x03 => do
    let (a, rest) ← readMat rest
    let (r, rest) ← readByte rest
    let (c, rest) ← readByte rest
    return (⟨cmd, { idle with a := a, r := r, c := c }⟩, rest)
  | 0x04 => do
    let (a, rest) ← readMat rest
    let (r, rest) ← readByte rest
    let (c, rest) ← readByte rest
    let (v, rest) ← readByte rest
    return (⟨cmd, { idle with a := a, r := r, c := c, v := v }⟩, rest)
  | 0x05 => do
    let (a, rest) ← readMat rest
    let (r, rest) ← readByte rest
    return (⟨cmd, { idle with a := a, r := r }⟩, rest)
  | 0x06 | 0x07 | 0x08 => do
    let (a, rest) ← readMat rest
    let (b, rest) ← readMat rest
    return (⟨cmd, { idle with a := a, b := b }⟩, rest)
  | 0x10 => do
    let (value, rest) ← readByte rest
    let (n, rest) ← readByte rest
    return (⟨cmd, { idle with value := value, n := n }⟩, rest)
  | 0x11 => do
    let (seq, rest) ← readSeq rest
    return (⟨cmd, { idle with seqIn := seq }⟩, rest)
  | 0x20 => do
    let (index, rest) ← readIndex rest
    return (⟨cmd, { idle with index := index }⟩, rest)
  | 0x30 => do
    let (src, rest) ← readByte rest
    return (⟨cmd, { idle with srcIn := src }⟩, rest)
  | 0x40 => do
    let (cw, rest) ← readByte rest
    return (⟨cmd, { idle with cwIn := cw }⟩, rest)
  | _ => .error (.reservedCommand cmd)

/-- The operation that the first line of a byte script stands for, and the bytes after it. -/
def decodeLine (bytes : List Byte) : Except DecodeError (Instr × List Byte) := do
  let (q, rest) ← readRequest bytes
  let i ← decode q.cmd q.ports
  return (i, rest)

/-- The instruction word of the operation table is the one byte `cmd`; the operands stand on ports of
their own, at their idle values here (log entry 4). -/
def decodeTableWord (nbits w : Nat) : Option Instr :=
  (decode (BitVec.ofNat 8 (w % 2 ^ nbits)) InPorts.idle).toOption

end Sys2Proof
end

