-- ==== Sys2Proof/Machine/State.lean ====
section
/-! DEFINITION. The machine's state: the three constants (R10, R11), and at the caller's side of the
ports the transactions it has presented and the outcome of the one last served. -/

namespace Sys2Proof.Machine

/-! ## The outcome of a transaction -/

/-- The seven failure kinds, no other (R150). A failure carries nothing but its kind. -/
inductive FailureKind where
  | invalidShape         -- R151
  | dimensionMismatch    -- R152
  | invalidValue         -- R153
  | indexOutOfRange      -- R154
  | invalidBitCount      -- R155
  | invalidLength        -- R156
  | uncorrectableError   -- R157
  deriving DecidableEq, Repr

/-- The diagnostic event of a transaction (R54, R160). -/
inductive Diag where
  | none
  | oneBit   -- "1-bit error detected"
  | twoBit   -- "2-bit error detected"
  deriving DecidableEq, Repr

/-- The result value of a successful transaction, by the output port that carries it. -/
inductive Result where
  | matrix   (m : Matrix)         -- m_out
  | sequence (b : List Bool)      -- seq_out
  | scalar   (v : Byte)           -- scalar_out
  | packed   (v : Byte)           -- packed
  | pattern  (m : Matrix)         -- pattern
  | codeword (v : Byte)           -- cw_out
  | nibble   (v : BitVec 4)       -- nib_out
  deriving DecidableEq, Repr

/-- Success with a result or failure with a kind: a failing transaction has no result (R158). -/
inductive Ending where
  | success (r : Result)
  | failure (k : FailureKind)
  deriving DecidableEq, Repr

/-- The outcome of one transaction: how it ended and its diagnostic event (R21, R140). -/
structure Response where
  ending : Ending
  diag   : Diag
  deriving DecidableEq, Repr

/-! ## State -/

/-- `g`, `hTr` and `syn` are the hardware's only state (R10, R11). `requests` is what the caller still
presents, oldest first, and `outcome` what it can read of the transaction last served: the caller's
side of the ports, not stored by the hardware (R19, R20, R24; log entry 2). -/
structure State where
  g        : Matrix
  hTr      : Matrix
  syn      : Vector Matrix 16
  requests : List Request
  outcome  : Option Response
  deriving DecidableEq, Repr

/-- The state after reset (R24, R170): the constants of R12, R13, R14; no transaction presented, and so
no outcome to read (R172). -/
def State.reset : State where
  g        := Config.g
  hTr      := Config.hTr
  syn      := Config.syn
  requests := []
  outcome  := Option.none

/-! ## How a step can stop -/

/-- No transaction stops the machine: each of the seven failures is an outcome handed to the caller,
after which the module serves the next transaction (R158, R163, R164). So there is no fault. -/
inductive Fault where
  deriving DecidableEq, Repr

/-- Why a step gives no meaning to what is presented. All are safe: the spec refuses, the model
refuses. -/
inductive Refusal where
  /-- Raised by exec's arm of an instruction that has no meaning yet. Safe. -/
  | notModelled (mnemonic : String)
  /-- Raised by step: a reserved `cmd` or a malformed operand (R55, R56, R168). Safe. -/
  | undecodable (e : DecodeError)
  /-- Raised by step: no transaction is presented, and there is no idle output (R24, R172). Safe. -/
  | noTransaction
  /-- Raised by the MAT operations on a term that is not a matrix value (R50); step never passes one.
  Safe. -/
  | notAMatrixValue
  /-- Raised by MAT.CONSTRUCT on raw rows above MAX_DIM (R50, R71); step never passes them. Safe. -/
  | aboveMaxDim
  /-- Raised by BP.PACK on a term that no `SEQ` bundle carries (R49); step never passes one. Safe. -/
  | notASequence
  /-- Raised by HAM.DECODE where a syndrome index is above 15, which R110 gives no entry; impossible
  with an 8x4 parity-check constant. Safe. -/
  | syndromeIndexOutsideTable
  deriving DecidableEq, Repr

end Sys2Proof.Machine
end

