-- ==== Sys2Proof/Machine/Flags.lean ====
section
/-! DEFINITION. The two condition outputs of a transaction, `status` and `diag` (R21, R53, R54), and the
count of set bits that Decode classifies by (R133, R134). -/

namespace Sys2Proof.Machine

/-- The `status` code of a failure kind (R53). -/
def FailureKind.status : FailureKind → BitVec 4
  | .invalidShape       => 1
  | .dimensionMismatch  => 2
  | .invalidValue       => 3
  | .indexOutOfRange    => 4
  | .invalidBitCount    => 5
  | .invalidLength      => 6
  | .uncorrectableError => 7

/-- The `status` output (R53): 0 is OK. -/
def Ending.status : Ending → BitVec 4
  | .success _ => 0
  | .failure k => k.status

/-- The `diag` output (R54). -/
def Diag.code : Diag → BitVec 2
  | .none   => 0
  | .oneBit => 1
  | .twoBit => 2

/-- `wt`, the Hamming weight: the count of elements that are 1 (R7, R9). -/
def weight (m : Matrix) : Nat := m.elems.flatten.count true

/-- The count of set bits up to a cap of 2 (R133). -/
def cappedCount (m : Matrix) : Nat := min 2 (weight m)

/-- The diagnostic event of a capped count (R54, R134). -/
def diagOfCount : Nat → Diag
  | 0 => .none
  | 1 => .oneBit
  | _ => .twoBit

end Sys2Proof.Machine
end

