-- ==== Sys2Proof/Machine/Ops.lean ====
section
/-! DEFINITION. The shared operations: how a transaction ends (R158), the functions `mat`, `mul`, `add`,
`row`, `unpack`, `pack` of R8, the read of a constant's entry (R30), and the caller's side of the
ports (R168). -/

namespace Sys2Proof.Machine

/-! ## Ending a transaction -/

/-- Why a computation ends without a result: `raise <Kind>`, with the diagnostic event emitted before
it, or a refusal. -/
inductive Stop where
  | failure (k : FailureKind) (d : Diag)
  | refusal (r : Refusal)
  deriving DecidableEq, Repr

/-- A computation inside one transaction. -/
abbrev Tx (α : Type) := Except Stop α

/-- `raise <Kind>` where no event was emitted (R8, R158). -/
def raise {α : Type} (k : FailureKind) : Tx α := .error (.failure k .none)

/-- No meaning: the model's refusal (R9, R168). -/
def refuse {α : Type} (r : Refusal) : Tx α := .error (.refusal r)

/-- The caller has an outcome to read; nothing else changes (R10, R158). -/
def State.finish (s : State) (o : Response) : State := { s with outcome := some o }

/-- The end of a transaction. This is also the hardware's whole "trap entry" (R158, R163): a failure
takes the place of the result, and the next state is ready for the next transaction (R164). -/
def conclude (x : Tx (Result × Diag)) (s : State) : Host.Outcome State Fault Refusal :=
  match x with
  | .ok (r, d) => .next (s.finish ⟨.success r, d⟩)
  | .error (.failure k d) => .next (s.finish ⟨.failure k, d⟩)
  | .error (.refusal r) => .refused r

/-! ## binary_matrix_gf2 -/

/-- `mat(rows)`: Construct (R71). -/
def construct (rows : List (List Bool)) : Tx Matrix :=
  match rows with
  | [] => raise .invalidShape
  | first :: _ =>
    if rows.any (fun row => decide (row.length = 0)) then raise .invalidShape
    else if rows.any (fun row => decide (row.length ≠ first.length)) then raise .invalidShape
    else .ok ⟨rows.length, first.length, rows⟩

/-- GetElement (R74). -/
def getElement (m : Matrix) (r c : Byte) : Tx Bool :=
  if r.toNat ≥ m.rows ∨ c.toNat ≥ m.cols then raise .indexOutOfRange
  else .ok (m.bit r.toNat c.toNat)

/-- SetElement (R75): the bounds check comes before the value check (R162). -/
def setElement (m : Matrix) (r c v : Byte) : Tx Matrix :=
  if r.toNat ≥ m.rows ∨ c.toNat ≥ m.cols then raise .indexOutOfRange
  else if v ≠ 0 ∧ v ≠ 1 then raise .invalidValue
  else .ok (Matrix.ofFn m.rows m.cols fun i j =>
    if i = r.toNat ∧ j = c.toNat then decide (v = 1) else m.bit i j)

/-- `row(M,r)`: GetRow, a copy (R76, R23). -/
def getRow (m : Matrix) (r : Byte) : Tx (List Bool) :=
  if r.toNat ≥ m.rows then raise .indexOutOfRange else .ok (m.rowBits r.toNat)

/-- `mul(A,B)`: the product over GF(2) (R77). -/
def mul (a b : Matrix) : Tx Matrix :=
  if a.cols ≠ b.rows then raise .dimensionMismatch
  else .ok (Matrix.ofFn a.rows b.cols fun i j => xorSum a.cols fun k => a.bit i k && b.bit k j)

/-- `add(A,B)`: the element-wise XOR, with the strict shape check (R78; 90_conflicts.md C1). -/
def add (a b : Matrix) : Tx Matrix :=
  if a.rows ≠ b.rows ∨ a.cols ≠ b.cols then raise .dimensionMismatch
  else .ok (Matrix.ofFn a.rows a.cols fun i j => a.bit i j ^^ b.bit i j)

/-- Equality: same dimensions and identical elements (R79). -/
def equal (a b : Matrix) : Bool :=
  decide (a.rows = b.rows) && decide (a.cols = b.cols) &&
  (List.range a.rows).all fun i => (List.range a.cols).all fun j => a.bit i j == b.bit i j

/-! ## bit_packer -/

/-- `unpack(value, n)` (R100). -/
def unpack (value n : Byte) : Tx (List Bool) :=
  if n.toNat > 8 then raise .invalidBitCount
  else .ok ((List.range n.toNat).map fun i => value.getLsbD (n.toNat - 1 - i))

/-- One bit as a port value. -/
def bitByte (x : Bool) : Byte := (BitVec.ofBool x).setWidth 8

/-- The loop of Pack: `v <- (v << 1) | b(i)` (R101). -/
def packBits (b : List Bool) : Byte := b.foldl (fun v x => (v <<< 1) ||| bitByte x) 0

/-- `pack(b)` of a present sequence (R101). -/
def pack (b : List Bool) : Tx Byte :=
  if b.length > 8 then raise .invalidLength else .ok (packBits b)

/-! ## The constants -/

/-- `MemRead(SYN, z)` (R8, R110). -/
def State.memReadSyn (s : State) (z : BitVec 4) : Matrix := s.syn[z.toFin]

/-- A packed syndrome as a table index; above 15 there is no entry and no failure kind (R110). -/
def syndromeIndex (v : Byte) : Tx (BitVec 4) :=
  if v.toNat < 16 then .ok (v.setWidth 4) else refuse .syndromeIndexOutsideTable

/-! ## The caller -/

/-- The caller presents one more transaction, to be served after those it presented before (R20,
R168). -/
def State.present (s : State) (q : Request) : State := { s with requests := s.requests ++ [q] }

end Sys2Proof.Machine
end

