-- ==== Sys2Proof/Machine/Operands.lean ====
section
/-! DEFINITION. What an operation requires of its operand values (R49, R50, R71), and the output ports
that carry an outcome (R49, R50, R53, R54, R84, R105, R114, R126, R142). -/

namespace Sys2Proof.Machine

/-- "defined only on matrix values ... refuse anything else" (R50). -/
def matrixOperand (m : Matrix) : Tx Unit := if m.wf then .ok () else refuse .notAMatrixValue

/-- Raw rows within MAX_DIM (R50, R71). -/
def rowsOperand (rows : List (List Bool)) : Tx Unit :=
  if rowsWithinMaxDim rows then .ok () else refuse .aboveMaxDim

/-- `pack` of the operand of BP.PACK: an absent sequence and a length above 8 are InvalidLength (R101). -/
def packOperand : PackOperand → Tx Byte
  | .absent => raise .invalidLength
  | .bits b => pack b
  | .tooLong len => if len.toNat > 8 then raise .invalidLength else refuse .notASequence

/-! ## Output ports -/

/-- Every output port of the five modules; a port that carries no value is `none` (R84, R158). -/
structure OutPorts where
  mOut      : Option MatWires
  seqOut    : Option SeqWires
  scalarOut : Option Byte
  packed    : Option Byte
  pattern   : Option MatWires
  cwOut     : Option Byte
  nibOut    : Option (BitVec 4)
  status    : BitVec 4
  diag      : BitVec 2
  deriving DecidableEq, Repr

/-- No result port carries a value. -/
def noResult (status : BitVec 4) (diag : BitVec 2) : OutPorts where
  mOut      := none
  seqOut    := none
  scalarOut := none
  packed    := none
  pattern   := none
  cwOut     := none
  nibOut    := none
  status    := status
  diag      := diag

/-- The output ports as the caller reads them. -/
def Response.ports (o : Response) : OutPorts :=
  let p := noResult o.ending.status o.diag.code
  match o.ending with
  | .failure _ => p
  | .success (.matrix m)   => { p with mOut := some (MatWires.ofMatrix m) }
  | .success (.sequence b) => { p with seqOut := some (SeqWires.ofBits b) }
  | .success (.scalar v)   => { p with scalarOut := some v }
  | .success (.packed v)   => { p with packed := some v }
  | .success (.pattern m)  => { p with pattern := some (MatWires.ofMatrix m) }
  | .success (.codeword v) => { p with cwOut := some v }
  | .success (.nibble v)   => { p with nibOut := some v }

end Sys2Proof.Machine
end

