-- ==== Sys2Proof/Machine/BinaryMatrix.lean ====
section
/-! DEFINITION. The nine operations of binary_matrix_gf2 (R71 to R79). Each drives `diag = 0`. -/

namespace Sys2Proof.Machine

/-- MAT.CONSTRUCT (R71). -/
def execMatConstruct (rows : List (List Bool)) (s : State) : Host.Outcome State Fault Refusal :=
  conclude (do
    rowsOperand rows
    let m ← construct rows
    return (.matrix m, .none)) s

/-- MAT.ROWS (R72). -/
def execMatRows (a : Matrix) (s : State) : Host.Outcome State Fault Refusal :=
  conclude (do
    matrixOperand a
    return (.scalar (BitVec.ofNat 8 a.rows), .none)) s

/-- MAT.COLS (R73). -/
def execMatCols (a : Matrix) (s : State) : Host.Outcome State Fault Refusal :=
  conclude (do
    matrixOperand a
    return (.scalar (BitVec.ofNat 8 a.cols), .none)) s

/-- MAT.GET (R74): the bit on bit 0 of `scalar_out` (R84). -/
def execMatGet (a : Matrix) (r c : Byte) (s : State) : Host.Outcome State Fault Refusal :=
  conclude (do
    matrixOperand a
    let x ← getElement a r c
    return (.scalar (bitByte x), .none)) s

/-- MAT.SET (R75): the changed matrix is the result; the operand is a value. -/
def execMatSet (a : Matrix) (r c v : Byte) (s : State) : Host.Outcome State Fault Refusal :=
  conclude (do
    matrixOperand a
    let m ← setElement a r c v
    return (.matrix m, .none)) s

/-- MAT.GETROW (R76). -/
def execMatGetRow (a : Matrix) (r : Byte) (s : State) : Host.Outcome State Fault Refusal :=
  conclude (do
    matrixOperand a
    let b ← getRow a r
    return (.sequence b, .none)) s

/-- MAT.MUL (R77): `a` is "this", the left operand. -/
def execMatMul (a b : Matrix) (s : State) : Host.Outcome State Fault Refusal :=
  conclude (do
    matrixOperand a
    matrixOperand b
    let m ← mul a b
    return (.matrix m, .none)) s

/-- MAT.ADD (R78). -/
def execMatAdd (a b : Matrix) (s : State) : Host.Outcome State Fault Refusal :=
  conclude (do
    matrixOperand a
    matrixOperand b
    let m ← add a b
    return (.matrix m, .none)) s

/-- MAT.EQ (R79): the bit on bit 0 of `scalar_out` (R84). -/
def execMatEq (a b : Matrix) (s : State) : Host.Outcome State Fault Refusal :=
  conclude (do
    matrixOperand a
    matrixOperand b
    return (.scalar (bitByte (equal a b)), .none)) s

end Sys2Proof.Machine
end

