-- ==== Sys2Proof/Machine/BitPacker.lean ====
section
/-! DEFINITION. The two operations of bit_packer (R100, R101). Both drive `diag = 0`. -/

namespace Sys2Proof.Machine

/-- BP.UNPACK (R100). -/
def execBpUnpack (value n : Byte) (s : State) : Host.Outcome State Fault Refusal :=
  conclude (do
    let b ← unpack value n
    return (.sequence b, .none)) s

/-- BP.PACK (R101). -/
def execBpPack (seq : PackOperand) (s : State) : Host.Outcome State Fault Refusal :=
  conclude (do
    let v ← packOperand seq
    return (.packed v, .none)) s

end Sys2Proof.Machine
end

