-- ==== Sys2Proof/Machine/Decoder.lean ====
section
/-! DEFINITION. hamming_decoder_8_4: Decode (R130 to R135), the fixed composition of the lower
operations (R60). -/

namespace Sys2Proof.Machine

/-- Step 1: the received word as a 1x8 row vector (R131). -/
def receivedRow (cw : Byte) : Tx Matrix := do construct [← unpack cw 8]

/-- Step 2, first half: the syndrome of a row vector, packed into a table index (R132, R47). -/
def syndromeOf (hTr r : Matrix) : Tx (BitVec 4) := do
  let z ← mul r hTr
  syndromeIndex (← pack (← getRow z 0))

/-- Step 4: classify by the capped count; a count of 2 emits the event and fails (R134). -/
def classify (error : Matrix) : Tx Diag :=
  if cappedCount error ≥ 2 then .error (.failure .uncorrectableError (diagOfCount (cappedCount error)))
  else .ok (diagOfCount (cappedCount error))

/-- Step 5: the corrected word, packed; its top four bits are the source word (R135, R58). -/
def correctedNibble (r error : Matrix) : Tx (BitVec 4) := do
  let c ← add r error
  let b ← pack (← getRow c 0)
  return b.extractLsb' 4 4

/-- The five steps of Decode (R130). -/
def decodeWord (s : State) (cw : Byte) : Tx (BitVec 4 × Diag) := do
  let r ← receivedRow cw
  let index ← syndromeOf s.hTr r
  let error := s.memReadSyn index
  let d ← classify error
  let nib ← correctedNibble r error
  return (nib, d)

/-- HAM.DECODE (R130). -/
def execHamDecode (cw : Byte) (s : State) : Host.Outcome State Fault Refusal :=
  conclude (do
    let (nib, d) ← decodeWord s cw
    return (.nibble nib, d)) s

end Sys2Proof.Machine
end

