-- ==== Sys2Proof/Machine/Encoder.lean ====
section
/-! DEFINITION. hamming_encoder_8_4: Encode (R120), the fixed composition of the lower operations (R60). -/

namespace Sys2Proof.Machine

/-- `c = s·G` for the low four bits of the input, packed (R120, R57). -/
def encodeWord (g : Matrix) (src : Byte) : Tx Byte := do
  let s ← construct [← unpack src 4]
  let c ← mul s g
  pack (← getRow c 0)

/-- HAM.ENCODE (R120). -/
def execHamEncode (src : Byte) (s : State) : Host.Outcome State Fault Refusal :=
  conclude (do
    let cw ← encodeWord s.g src
    return (.codeword cw, .none)) s

end Sys2Proof.Machine
end

