-- ==== Sys2Proof/Machine/SyndromeTable.lean ====
section
/-! DEFINITION. The one operation of syndrome_lookup_table (R110). -/

namespace Sys2Proof.Machine

/-- SYN.LOOKUP (R110). -/
def execSynLookup (index : BitVec 4) (s : State) : Host.Outcome State Fault Refusal :=
  conclude (.ok (.pattern (s.memReadSyn index), .none)) s

end Sys2Proof.Machine
end

