-- ==== Sys2Proof/Machine/Dispatch.lean ====
section
/-! DEFINITION. One transaction: the operation that `cmd` selects (R5, R52). -/

namespace Sys2Proof.Machine

def exec (i : Instr) (s : State) : Host.Outcome State Fault Refusal :=
  match i with
  | .matConstruct rows => Sys2Proof.Machine.execMatConstruct rows s
  | .matRows a => Sys2Proof.Machine.execMatRows a s
  | .matCols a => Sys2Proof.Machine.execMatCols a s
  | .matGet a r c => Sys2Proof.Machine.execMatGet a r c s
  | .matSet a r c v => Sys2Proof.Machine.execMatSet a r c v s
  | .matGetRow a r => Sys2Proof.Machine.execMatGetRow a r s
  | .matMul a b => Sys2Proof.Machine.execMatMul a b s
  | .matAdd a b => Sys2Proof.Machine.execMatAdd a b s
  | .matEq a b => Sys2Proof.Machine.execMatEq a b s
  | .bpUnpack value n => Sys2Proof.Machine.execBpUnpack value n s
  | .bpPack seq => Sys2Proof.Machine.execBpPack seq s
  | .synLookup index => Sys2Proof.Machine.execSynLookup index s
  | .hamEncode src => Sys2Proof.Machine.execHamEncode src s
  | .hamDecode cw => Sys2Proof.Machine.execHamDecode cw s

end Sys2Proof.Machine
end

