-- ==== Sys2Proof/Machine/Step.lean ====
section
/-! DEFINITION. One step: the oldest presented transaction is served, to completion (R5, R20, R37). -/

namespace Sys2Proof.Machine

/-- The caller takes the oldest transaction off the ports once it is served (R171, R177). -/
def State.served (s : State) : State := { s with requests := s.requests.tail }

/-- One transaction, from the presented ports to its outcome. -/
def step (s : State) : Host.Outcome State Fault Refusal :=
  match s.requests with
  | [] => .refused .noTransaction
  | q :: _ =>
    match decode q.cmd q.ports with
    | .error e => .refused (.undecodable e)
    | .ok i => exec i s.served

/-- `s` with the operation of the table word `w` presented before everything else, its operand ports
at their idle values (log entry 4). -/
def State.withFetchWord (s : State) (nbits w : Nat) : State :=
  { s with requests := ⟨BitVec.ofNat 8 (w % 2 ^ nbits), InPorts.idle⟩ :: s.requests }

end Sys2Proof.Machine
end

