-- ==== Sys2Proof/Safety.lean ====
section
/-! DEFINITION. What the claims assume of the constants (R15), and what every outcome and every state
keeps (R53, R54, R140). -/

namespace Sys2Proof.Machine

/-- `e_i`, the 1x8 row vector with a single 1 in column i (R7). -/
def unitPattern (i : Nat) : Matrix := Matrix.ofFn 1 8 fun _ j => decide (j = i)

/-- The 1x8 row vector of an 8-bit word: column j is bit 7-j (R31). -/
def rowOf (w : Byte) : Matrix := Matrix.ofFn 1 8 fun _ j => w.getLsbD (7 - j)

/-- The zero matrix of a shape. -/
def zeroMatrix (rows cols : Nat) : Matrix := Matrix.ofFn rows cols fun _ _ => false

/-- The constraints that every admissible choice of the three constants meets (R15, items 1 to 8). -/
structure Admissible (s : State) : Prop where
  /-- item 1 -/
  gShape : s.g.wf = true ∧ s.g.rows = 4 ∧ s.g.cols = 8
  /-- item 1 -/
  hTrShape : s.hTr.wf = true ∧ s.hTr.rows = 8 ∧ s.hTr.cols = 4
  /-- item 1 -/
  synShape : ∀ z : BitVec 4,
    (s.memReadSyn z).wf = true ∧ (s.memReadSyn z).rows = 1 ∧ (s.memReadSyn z).cols = 8
  /-- item 2 -/
  systematic : ∀ i < 4, ∀ j < 4, s.g.bit i j = decide (i = j)
  /-- item 3: `G·H_TR` is zero -/
  productZero : mul s.g s.hTr = .ok (zeroMatrix 4 4)
  /-- item 3: no other word has zero syndrome -/
  zeroOnly : ∀ w : Byte, syndromeOf s.hTr (rowOf w) = .ok 0 → ∃ src : Byte, encodeWord s.g src = .ok w
  /-- item 4 -/
  entryZero : s.memReadSyn 0 = zeroMatrix 1 8
  /-- item 5 -/
  single : ∀ i < 8, ∃ z, syndromeOf s.hTr (unitPattern i) = .ok z ∧ s.memReadSyn z = unitPattern i
  /-- item 6 -/
  representative : ∀ z : BitVec 4, syndromeOf s.hTr (s.memReadSyn z) = .ok z ∧
    ∀ w : Byte, syndromeOf s.hTr (rowOf w) = .ok z → weight (s.memReadSyn z) ≤ weight (rowOf w)
  /-- item 7 -/
  double : ∀ i < 8, ∀ j < 8, i ≠ j → ∃ e z, add (unitPattern i) (unitPattern j) = .ok e ∧
    syndromeOf s.hTr e = .ok z ∧ 2 ≤ weight (s.memReadSyn z)
  /-- item 8 -/
  workedExample : encodeWord s.g 0b1100 = .ok 0b11001100

/-- The constants are those of the spec (R12, R13, R14). -/
def HasSpecConstants (s : State) : Prop := s.g = Config.g ∧ s.hTr = Config.hTr ∧ s.syn = Config.syn

/-- A result value that its output port can carry. -/
def Result.wf : Result → Bool
  | .matrix m => m.wf
  | .sequence b => decide (b.length ≤ 8)
  | .scalar _ => true
  | .packed _ => true
  | .pattern m => m.wf && decide (m.rows = 1) && decide (m.cols = 8)
  | .codeword _ => true
  | .nibble _ => true

/-- An outcome the hardware can produce: an event only from Decode, "2-bit error detected" exactly with
UncorrectableError (R54, R140, R157, R160). -/
def Response.wf (o : Response) : Bool :=
  match o.ending, o.diag with
  | .success r, .none => r.wf
  | .success (.nibble _), .oneBit => true
  | .failure .uncorrectableError, .twoBit => true
  | .failure k, .none => decide (k ≠ .uncorrectableError)
  | _, _ => false

/-- The outcome that a transaction hands to the caller, if it has one. -/
def outcomeOf (i : Instr) (s : State) : Option Response :=
  match exec i s with
  | .next t => t.outcome
  | .fault _ => none
  | .refused _ => none

/-- Whether a transaction ended in success (R5). -/
def Response.succeeded (o : Response) : Bool :=
  match o.ending with
  | .success _ => true
  | .failure _ => false

/-- The valid codewords: the results of Encode (R9, R123). -/
def IsCodeword (s : State) (w : Byte) : Prop := ∃ src : Byte, encodeWord s.g src = .ok w

/-- The syndrome index of a received word: steps 1 and 2 of Decode (R131, R132). -/
def syndromeOfWord (s : State) (w : Byte) : Tx (BitVec 4) := do syndromeOf s.hTr (← receivedRow w)

/-- The invariant of a run: admissible constants, and a legal outcome wherever there is one. -/
def State.Inv (s : State) : Prop := Admissible s ∧ ∀ o, s.outcome = some o → o.wf = true

/-- A presented transaction that has a meaning (R168). -/
def Meaningful (q : Request) : Prop := ∃ i, decode q.cmd q.ports = .ok i

end Sys2Proof.Machine
end

