-- ==== Sys2Proof/Certificates/Slice0/Obligations.lean ====
section
/-! DEFINITION. The statements about the machine, from the numbered rules of the spec. -/

open Sys2Proof Sys2Proof.Machine

/-! ## Encodings and port bundles -/

/-- Decode and encode agree, for every operation with every operand that the ports can carry
(30_encoding.md sections 2 and 3). -/
def Obligations.DecodeOfEncodeIsIdentity : Prop :=
  ∀ i : Instr, i.WellFormed → decode (encode i).cmd (encode i).ports = .ok i

/-- The bytes of a script line (R59, with the bundle layout of log entry 5) read back to the operation,
and what follows the line is untouched. -/
def Obligations.LineBytesDecodeBack : Prop :=
  ∀ (i : Instr) (rest : List Byte), i.WellFormed → decodeLine (i.lineBytes ++ rest) = .ok (i, rest)

/-- Whatever stands on the wires, what is decoded is a well-formed operation (R50, R56). -/
def Obligations.DecodedOperationsAreWellFormed : Prop :=
  ∀ (cmd : Byte) (p : InPorts) (i : Instr), decode cmd p = .ok i → i.WellFormed ∧ i.cmd = cmd

/-- The operation table (R52): each listed `cmd` selects its operation with its operands from the ports
its rule lists, and `cmd[7:4]` is the module. -/
def Obligations.CommandTableSelectsOperation : Prop :=
  (∀ p : InPorts,
    (∀ rows, p.rowsIn.toRows = .ok rows → decode 0x00 p = .ok (.matConstruct rows)) ∧
    (∀ a, p.a.toMatrix = .ok a →
      decode 0x01 p = .ok (.matRows a) ∧ decode 0x02 p = .ok (.matCols a) ∧
      decode 0x03 p = .ok (.matGet a p.r p.c) ∧ decode 0x04 p = .ok (.matSet a p.r p.c p.v) ∧
      decode 0x05 p = .ok (.matGetRow a p.r) ∧
      ∀ b, p.b.toMatrix = .ok b → decode 0x06 p = .ok (.matMul a b) ∧
        decode 0x07 p = .ok (.matAdd a b) ∧ decode 0x08 p = .ok (.matEq a b)) ∧
    decode 0x10 p = .ok (.bpUnpack p.value p.n) ∧
    decode 0x11 p = .ok (.bpPack p.seqIn.toPackOperand) ∧
    decode 0x20 p = .ok (.synLookup p.index) ∧
    decode 0x30 p = .ok (.hamEncode p.srcIn) ∧
    decode 0x40 p = .ok (.hamDecode p.cwIn)) ∧
  ∀ i : Instr, i.cmd.extractLsb' 4 4 = i.module.code

/-- The `SEQ` bundle (R49): `present`, `len`, an element on each wire before `len`; on outputs
`present = 1` and the wires at or past `len` are 0. -/
def Obligations.SequenceBundleRule : Prop :=
  (∀ w : SeqWires,
    (w.present = false → w.toPackOperand = .absent) ∧
    (w.present = true → 8 < w.len.toNat → w.toPackOperand = .tooLong w.len) ∧
    (w.present = true → w.len.toNat ≤ 8 → ∃ b, w.toPackOperand = .bits b ∧ b.length = w.len.toNat ∧
      ∀ i : Fin 8, i.val < w.len.toNat → b.getD i false = w.e[i])) ∧
  ∀ (b : List Bool) (d : Diag), b.length ≤ 8 →
    ∃ w, (Response.ports ⟨.success (.sequence b), d⟩).seqOut = some w ∧ w.present = true ∧
      w.len.toNat = b.length ∧
      ∀ i : Fin 8, w.e[i] = (decide (i.val < b.length) && b.getD i false)

/-- The `MAT` and `ROWS` bundles (30_encoding.md section 2): the elements inside the shape, the other wires
ignored on inputs and 0 on both outputs that carry a matrix, `m_out` and `pattern`; what is not a matrix
value, or is above MAX_DIM on any of the eight row bundles, has no meaning (section 5). That an absent row
bundle is refused is the model's choice (log entry 6). -/
def Obligations.MatrixBundleRule : Prop :=
  (∀ w : MatWires,
    ((1 ≤ w.rows.toNat ∧ w.rows.toNat ≤ 8) ∧ (1 ≤ w.cols.toNat ∧ w.cols.toNat ≤ 8) →
      ∃ m, w.toMatrix = .ok m ∧ m.wf = true ∧ m.rows = w.rows.toNat ∧ m.cols = w.cols.toNat ∧
        ∀ r c : Fin 8, r.val < m.rows → c.val < m.cols → m.bit r c = w.e[r][c]) ∧
    (¬ ((1 ≤ w.rows.toNat ∧ w.rows.toNat ≤ 8) ∧ (1 ≤ w.cols.toNat ∧ w.cols.toNat ≤ 8)) →
      w.toMatrix = .error (.notAMatrix w.rows w.cols))) ∧
  (∀ (m : Matrix) (d : Diag), m.wf = true →
    ∃ w, (Response.ports ⟨.success (.matrix m), d⟩).mOut = some w ∧
      (Response.ports ⟨.success (.pattern m), d⟩).pattern = some w ∧
      w.rows.toNat = m.rows ∧ w.cols.toNat = m.cols ∧
      ∀ r c : Fin 8, w.e[r][c] = (decide (r.val < m.rows) && decide (c.val < m.cols) && m.bit r c)) ∧
  ∀ w : RowsWires,
    (8 < w.count.toNat → w.toRows = .error (.tooManyRows w.count)) ∧
    ((∃ i : Fin 8, w.row[i].present = false ∨ 8 < w.row[i].len.toNat) → ∃ e, w.toRows = .error e) ∧
    (w.count.toNat ≤ 8 → (∀ i : Fin 8, w.row[i].present = true ∧ w.row[i].len.toNat ≤ 8) →
      ∃ rows, w.toRows = .ok rows ∧ rows.length = w.count.toNat ∧
        ∀ i : Fin 8, i.val < w.count.toNat → (rows.getD i []).length = w.row[i].len.toNat ∧
          ∀ j : Fin 8, j.val < w.row[i].len.toNat → (rows.getD i []).getD j false = w.row[i].e[j])

/-- Every `cmd` outside the table is reserved and refused, whatever stands on the ports (R55). -/
def Obligations.ReservedCommandIsRefused : Prop :=
  ∀ cmd : Byte,
    ((0x09 ≤ cmd.toNat ∧ cmd.toNat ≤ 0x0F) ∨ (0x12 ≤ cmd.toNat ∧ cmd.toNat ≤ 0x1F) ∨
      (0x21 ≤ cmd.toNat ∧ cmd.toNat ≤ 0x2F) ∨ (0x31 ≤ cmd.toNat ∧ cmd.toNat ≤ 0x3F) ∨
      (0x41 ≤ cmd.toNat ∧ cmd.toNat ≤ 0xFF) ↔ cmd ∉ listedCommands) ∧
    (cmd ∉ listedCommands → ∀ (p : InPorts) (s : State) (rest : List Request),
      s.requests = ⟨cmd, p⟩ :: rest → step s = .refused (.undecodable (.reservedCommand cmd)))

/-- `status` 8 to 15 and `diag` 3 are never produced; a reserved operand value is refused; the high bits
of HAM.ENCODE's port are not reserved (30_encoding.md section 5; the first clause is marked by the spec
as derived). -/
def Obligations.ReservedValuesRule : Prop :=
  (∀ o : Response, o.ports.status.toNat ≤ 7 ∧ o.ports.diag.toNat ≤ 2) ∧
  (∀ (s : State) (q : Request) (rest : List Request), s.requests = q :: rest →
    (1 ≤ q.cmd.toNat ∧ q.cmd.toNat ≤ 8 →
      (q.ports.a.rows.toNat = 0 ∨ 8 < q.ports.a.rows.toNat ∨
        q.ports.a.cols.toNat = 0 ∨ 8 < q.ports.a.cols.toNat) →
      ∃ e, step s = .refused (.undecodable e)) ∧
    (6 ≤ q.cmd.toNat ∧ q.cmd.toNat ≤ 8 →
      (q.ports.b.rows.toNat = 0 ∨ 8 < q.ports.b.rows.toNat ∨
        q.ports.b.cols.toNat = 0 ∨ 8 < q.ports.b.cols.toNat) →
      ∃ e, step s = .refused (.undecodable e)) ∧
    (q.cmd = 0 → (8 < q.ports.rowsIn.count.toNat ∨ ∃ i : Fin 8, 8 < q.ports.rowsIn.row[i].len.toNat) →
      ∃ e, step s = .refused (.undecodable e))) ∧
  ∀ p : InPorts, decode 0x30 p = .ok (.hamEncode p.srcIn)

/-- HAM.ENCODE reads the low four bits of its port, most significant first, and nothing else (R57). -/
def Obligations.EncodeReadsLowFourBitsOnly : Prop :=
  (∀ (s : State) (src src' : Byte), src.extractLsb' 0 4 = src'.extractLsb' 0 4 →
    exec (.hamEncode src) s = exec (.hamEncode src') s) ∧
  ∀ src : Byte, unpack src 4 =
    .ok [src.getLsbD 3, src.getLsbD 2, src.getLsbD 1, src.getLsbD 0]

/-- Inputs that an operation does not list are ignored (40_binary_matrix_gf2.md section 5 and the port
lists of the other modules). -/
def Obligations.UnlistedInputsAreIgnored : Prop :=
  ∀ p p' : InPorts,
    (p.rowsIn = p'.rowsIn → decode 0x00 p = decode 0x00 p') ∧
    (p.a = p'.a → decode 0x01 p = decode 0x01 p' ∧ decode 0x02 p = decode 0x02 p') ∧
    (p.a = p'.a → p.r = p'.r → decode 0x05 p = decode 0x05 p') ∧
    (p.a = p'.a → p.r = p'.r → p.c = p'.c → decode 0x03 p = decode 0x03 p') ∧
    (p.a = p'.a → p.r = p'.r → p.c = p'.c → p.v = p'.v → decode 0x04 p = decode 0x04 p') ∧
    (p.a = p'.a → p.b = p'.b → decode 0x06 p = decode 0x06 p' ∧ decode 0x07 p = decode 0x07 p' ∧
      decode 0x08 p = decode 0x08 p') ∧
    (p.value = p'.value → p.n = p'.n → decode 0x10 p = decode 0x10 p') ∧
    (p.seqIn = p'.seqIn → decode 0x11 p = decode 0x11 p') ∧
    (p.index = p'.index → decode 0x20 p = decode 0x20 p') ∧
    (p.srcIn = p'.srcIn → decode 0x30 p = decode 0x30 p') ∧
    (p.cwIn = p'.cwIn → decode 0x40 p = decode 0x40 p')

/-- The script lines that 95_test_vectors.md section 4 spells as bytes; the last clause, a MAT.GETROW line
that the spec spells only as `05` + MAT(a), `00`, is the model's choice of the bytes of a bundle (log
entry 5). -/
def Obligations.SpecScriptLinesDecode : Prop :=
  decodeLine [0x30, 0x0C] = .ok (.hamEncode 0x0C, []) ∧
  decodeLine [0x40, 0xCC] = .ok (.hamDecode 0xCC, []) ∧
  decodeLine [0x10, 0x0C, 0x04] = .ok (.bpUnpack 0x0C 4, []) ∧
  decodeLine [0x20, 0x01] = .ok (.synLookup 1, []) ∧
  decodeLine [0x30, 0x05, 0x40, 0x15] = .ok (.hamEncode 5, [0x40, 0x15]) ∧
  decodeLine ([0x05] ++ (MatWires.ofMatrix ⟨1, 4, [[false, false, false, true]]⟩).toBytes ++ [0x00]) =
    .ok (.matGetRow ⟨1, 4, [[false, false, false, true]]⟩ 0, [])

/-! ## Steps, frames and invariants -/

/-- A step serves the oldest presented transaction: it is exec of the decoded operation, with that
transaction taken off the ports. What has no meaning is refused, and so is a step with nothing
presented (log entry 3). -/
def Obligations.StepRunsDecodedOperation : Prop :=
  ∀ s : State,
    (∀ (q : Request) (rest : List Request), s.requests = q :: rest →
      (∀ i, decode q.cmd q.ports = .ok i → step s = exec i { s with requests := rest }) ∧
      (∀ e, decode q.cmd q.ports = .error e → step s = .refused (.undecodable e))) ∧
    (s.requests = [] → step s = .refused .noTransaction)

/-- A transaction maps operands to an outcome and leaves the state unchanged (R10): the frame of all
fourteen operations. `outcome`, the caller's side of the output ports, is no state of the hardware (log
entry 2). -/
def Obligations.TransactionLeavesStateUnchanged : Prop :=
  ∀ (i : Instr) (s t : State), exec i s = .next t →
    t.g = s.g ∧ t.hTr = s.hTr ∧ t.syn = s.syn ∧ t.requests = s.requests ∧ ∃ o, t.outcome = some o

/-- The constants (R11): no run of any length writes one, and their shapes are those of the rule. -/
def Obligations.RunsNeverWriteConstants : Prop :=
  (∀ (n : Nat) (s t : State), Host.Core.run Sys2Proof.core n s = .next t →
    t.g = s.g ∧ t.hTr = s.hTr ∧ t.syn = s.syn) ∧
  ∀ s : State, HasSpecConstants s →
    (s.g.wf = true ∧ s.g.rows = 4 ∧ s.g.cols = 8) ∧
    (s.hTr.wf = true ∧ s.hTr.rows = 8 ∧ s.hTr.cols = 4) ∧
    s.syn.toList.length = 16 ∧ ∀ e ∈ s.syn.toList, e.wf = true ∧ e.rows = 1 ∧ e.cols = 8

/-- The invariant: admissible constants, and any outcome legal (its matrices are matrix values, an event
only from Decode, event 2 exactly with UncorrectableError). Every step keeps it. -/
def Obligations.StepKeepsInvariant : Prop :=
  ∀ s t : State, s.Inv → step s = .next t → t.Inv

/-- Reset meets the invariant. -/
def Obligations.ResetMeetsInvariant : Prop := State.reset.Inv

/-- At reset G, H_TR and SYN hold the values of R12, R13, R14 (the spec's own literals, D1 to D3), as the
bytes and indices the spec prints. -/
def Obligations.ResetHoldsTheConstants : Prop :=
  (State.reset.g.rows = 4 ∧ State.reset.g.cols = 8 ∧
    (List.range 4).map (fun r => packBits (State.reset.g.rowBits r)) = [0x87, 0x4B, 0x2D, 0x1E]) ∧
  (State.reset.hTr.rows = 8 ∧ State.reset.hTr.cols = 4 ∧
    (List.range 8).map (fun r => (packBits (State.reset.hTr.rowBits r)).toNat) =
      [7, 11, 13, 14, 8, 4, 2, 1]) ∧
  State.reset.syn.toList.map (fun e => (e.rows, e.cols, packBits (e.rowBits 0))) =
    [(1, 8, 0x00), (1, 8, 0x01), (1, 8, 0x02), (1, 8, 0x03), (1, 8, 0x04), (1, 8, 0x05), (1, 8, 0x06),
     (1, 8, 0x80), (1, 8, 0x08), (1, 8, 0x09), (1, 8, 0x0A), (1, 8, 0x40), (1, 8, 0x0C), (1, 8, 0x20),
     (1, 8, 0x10), (1, 8, 0x11)]

/-- The literals satisfy every constraint of R15 (item 7 among them, which the spec marks as derived). -/
def Obligations.ResetConstantsAreAdmissible : Prop := Admissible State.reset

/-- Repeating a transaction gives the same outcome and changes nothing (20_memory.md section 3). -/
def Obligations.RepeatedTransactionChangesNothing : Prop :=
  ∀ (i : Instr) (s t : State), exec i s = .next t → exec i t = .next t

/-- An outcome depends on the operands and the constants alone, never on an earlier transaction (R174). -/
def Obligations.OutcomeDependsOnOperandsAndConstantsOnly : Prop :=
  ∀ (i : Instr) (s s' : State), s.g = s'.g → s.hTr = s'.hTr → s.syn = s'.syn →
    (∀ o, exec i s = .next (s.finish o) ↔ exec i s' = .next (s'.finish o)) ∧
    (∀ r, exec i s = .refused r ↔ exec i s' = .refused r)

/-- Wherever a transaction stands in a run, whoever presented the others, the caller gets the outcome it
would get alone (20_memory.md section 4). The queue of presented transactions is the model's (log entry 2),
and so is an order in place of simultaneous callers (log entry 9). -/
def Obligations.EarlierTransactionsLeaveNoTrace : Prop :=
  ∀ (s t : State) (before after : List Request) (q : Request),
    s.requests = before ++ q :: after →
    Host.Core.run Sys2Proof.core (before.length + 1) s = .next t →
    ∃ u, step { s with requests := [q], outcome := none } = .next u ∧ u.outcome = t.outcome ∧
      t.requests = after

/-- The status table (R53): 0 exactly on success, no value on a result port otherwise, and each failure
kind with its code and the operations that raise it. -/
def Obligations.StatusTable : Prop :=
  (∀ o : Response, (o.ports.status = 0 ↔ ∃ r, o.ending = .success r) ∧
    (o.ports.status ≠ 0 → o.ports = noResult o.ports.status o.ports.diag)) ∧
  ∀ (i : Instr) (s t : State) (o : Response) (k : FailureKind), Admissible s → exec i s = .next t →
    t.outcome = some o → o.ending = .failure k →
    match k with
    | .invalidShape => o.ports.status = 1 ∧ ∃ rows, i = .matConstruct rows
    | .dimensionMismatch => o.ports.status = 2 ∧ ((∃ a b, i = .matMul a b) ∨ ∃ a b, i = .matAdd a b)
    | .invalidValue => o.ports.status = 3 ∧ ∃ a r c v, i = .matSet a r c v
    | .indexOutOfRange => o.ports.status = 4 ∧
        ((∃ a r c, i = .matGet a r c) ∨ (∃ a r c v, i = .matSet a r c v) ∨ ∃ a r, i = .matGetRow a r)
    | .invalidBitCount => o.ports.status = 5 ∧ ∃ v n, i = .bpUnpack v n
    | .invalidLength => o.ports.status = 6 ∧ ∃ seq, i = .bpPack seq
    | .uncorrectableError => o.ports.status = 7 ∧ ∃ cw, i = .hamDecode cw

/-- Which port carries the result of each operation that succeeds, and that every other result port carries
no value, `none` in the model (log entry 12); `diag` is 0 but for HAM.DECODE (the port lists of the five
modules: R84, R105, R114, R126, R142). -/
def Obligations.ResultPortOfEachOperation : Prop :=
  ∀ (i : Instr) (s t : State) (r : Result) (d : Diag), exec i s = .next t →
    t.outcome = some ⟨.success r, d⟩ →
    match i with
    | .matConstruct _ | .matSet _ _ _ _ | .matMul _ _ | .matAdd _ _ => ∃ m, r = .matrix m ∧
        Response.ports ⟨.success r, d⟩ = { noResult 0 0 with mOut := some (MatWires.ofMatrix m) }
    | .matRows _ | .matCols _ => ∃ v, r = .scalar v ∧
        Response.ports ⟨.success r, d⟩ = { noResult 0 0 with scalarOut := some v }
    | .matGet _ _ _ | .matEq _ _ => ∃ v, r = .scalar v ∧ v.extractLsb' 1 7 = 0 ∧
        Response.ports ⟨.success r, d⟩ = { noResult 0 0 with scalarOut := some v }
    | .matGetRow a _ => ∃ b, r = .sequence b ∧ b.length = a.cols ∧
        Response.ports ⟨.success r, d⟩ = { noResult 0 0 with seqOut := some (SeqWires.ofBits b) }
    | .bpUnpack _ n => ∃ b w, r = .sequence b ∧ w = SeqWires.ofBits b ∧ w.len = n ∧ w.present = true ∧
        Response.ports ⟨.success r, d⟩ = { noResult 0 0 with seqOut := some w }
    | .bpPack _ => ∃ v, r = .packed v ∧
        Response.ports ⟨.success r, d⟩ = { noResult 0 0 with packed := some v }
    | .synLookup _ => ∃ m w, r = .pattern m ∧ w = MatWires.ofMatrix m ∧
        (Admissible s → w.rows = 1 ∧ w.cols = 8) ∧
        Response.ports ⟨.success r, d⟩ = { noResult 0 0 with pattern := some w }
    | .hamEncode _ => ∃ v, r = .codeword v ∧
        Response.ports ⟨.success r, d⟩ = { noResult 0 0 with cwOut := some v }
    | .hamDecode _ => ∃ v, r = .nibble v ∧ (d.code = 0 ∨ d.code = 1) ∧
        Response.ports ⟨.success r, d⟩ = { noResult 0 d.code with nibOut := some v }

/-- The diagnostic table (R54): 0 for every operation but HAM.DECODE; for HAM.DECODE the capped count of
the table entry that the syndrome selects. -/
def Obligations.DiagnosticTable : Prop :=
  (∀ (i : Instr) (s t : State) (o : Response), (∀ cw, i ≠ .hamDecode cw) → exec i s = .next t →
    t.outcome = some o → o.ports.diag = 0) ∧
  ∀ (s t : State) (cw : Byte) (o : Response), Admissible s → exec (.hamDecode cw) s = .next t →
    t.outcome = some o → ∃ z, syndromeOfWord s cw = .ok z ∧
      o.ports.diag.toNat = min 2 (weight (s.memReadSyn z))

/-- "2-bit error detected" if and only if UncorrectableError (44_hamming_decoder_8_4.md R140, which the spec
marks as derived). -/
def Obligations.EventTwoExactlyWhenUncorrectable : Prop :=
  ∀ (s t : State) (cw : Byte) (o : Response), Admissible s → exec (.hamDecode cw) s = .next t →
    t.outcome = some o →
    (o.ports.diag = 2 ↔ o.ending = .failure .uncorrectableError) ∧
    (o.ports.diag = 0 ∨ o.ports.diag = 1 ↔ ∃ r, o.ending = .success r)

/-- A failing transaction has its status code, no result on any port, and no other effect (R158). -/
def Obligations.FailureHasNoResultAndNoEffect : Prop :=
  ∀ (i : Instr) (s t : State) (k : FailureKind) (d : Diag), exec i s = .next t →
    t.outcome = some ⟨.failure k, d⟩ →
    t = s.finish ⟨.failure k, d⟩ ∧
    (Response.ports ⟨.failure k, d⟩).status = k.status ∧ k.status ≠ 0 ∧
    (Response.ports ⟨.failure k, d⟩).mOut = none ∧ (Response.ports ⟨.failure k, d⟩).seqOut = none ∧
    (Response.ports ⟨.failure k, d⟩).scalarOut = none ∧ (Response.ports ⟨.failure k, d⟩).packed = none ∧
    (Response.ports ⟨.failure k, d⟩).pattern = none ∧ (Response.ports ⟨.failure k, d⟩).cwOut = none ∧
    (Response.ports ⟨.failure k, d⟩).nibOut = none

/-- Every operation on every operand value completes with exactly one legal outcome (00_scope.md
section 3, 60_exceptions.md section 7). -/
def Obligations.EveryPresentableOperationCompletes : Prop :=
  ∀ (s : State) (i : Instr), Admissible s → i.WellFormed →
    ∃ o, exec i s = .next (s.finish o) ∧ o.wf = true

/-- A script of meaningful transactions is served to its end, one step each (70_reset_and_hazards.md
section 4: every transaction ends). -/
def Obligations.MeaningfulScriptIsServedToItsEnd : Prop :=
  ∀ s : State, s.Inv → (∀ q ∈ s.requests, Meaningful q) →
    ∃ t, Host.Core.run Sys2Proof.core s.requests.length s = .next t ∧ t.requests = [] ∧ t.Inv ∧
      (s.requests ≠ [] → ∃ o, t.outcome = some o)

/-! ## binary_matrix_gf2 -/

/-- MAT.CONSTRUCT (R71). -/
def Obligations.ConstructResult : Prop :=
  ∀ (s : State) (rows : List (List Bool)),
    (encode (.matConstruct rows)).cmd = 0x00 ∧
    (rowsWithinMaxDim rows = true →
      (rows = [] ∨ [] ∈ rows ∨ ∃ x ∈ rows, ∃ y ∈ rows, x.length ≠ y.length) →
      exec (.matConstruct rows) s = .next (s.finish ⟨.failure .invalidShape, .none⟩)) ∧
    (∀ n, rowsWithinMaxDim rows = true → rows ≠ [] → 0 < n → (∀ x ∈ rows, x.length = n) →
      ∃ m, exec (.matConstruct rows) s = .next (s.finish ⟨.success (.matrix m), .none⟩) ∧
        m.wf = true ∧ m.rows = rows.length ∧ m.cols = n ∧
        ∀ i < rows.length, ∀ j < n, m.bit i j = (rows.getD i []).getD j false) ∧
    (rowsWithinMaxDim rows = false → exec (.matConstruct rows) s = .refused .aboveMaxDim)

/-- MAT.ROWS and MAT.COLS (R72, R73): the fixed dimensions, never a failure. -/
def Obligations.RowAndColumnCounts : Prop :=
  ∀ (s : State) (a : Matrix), a.wf = true →
    (encode (.matRows a)).cmd = 0x01 ∧ (encode (.matCols a)).cmd = 0x02 ∧
    (∃ v : Byte, exec (.matRows a) s = .next (s.finish ⟨.success (.scalar v), .none⟩) ∧
      v.toNat = a.rows ∧ 1 ≤ v.toNat ∧ v.toNat ≤ 8) ∧
    (∃ v : Byte, exec (.matCols a) s = .next (s.finish ⟨.success (.scalar v), .none⟩) ∧
      v.toNat = a.cols ∧ 1 ≤ v.toNat ∧ v.toNat ≤ 8) ∧
    ∀ (r c v : Byte) (m : Matrix),
      exec (.matSet a r c v) s = .next (s.finish ⟨.success (.matrix m), .none⟩) →
      m.rows = a.rows ∧ m.cols = a.cols

/-- MAT.GET (R74). -/
def Obligations.GetElementResult : Prop :=
  ∀ (s : State) (a : Matrix) (r c : Byte), a.wf = true →
    (encode (.matGet a r c)).cmd = 0x03 ∧
    (a.rows ≤ r.toNat ∨ a.cols ≤ c.toNat →
      exec (.matGet a r c) s = .next (s.finish ⟨.failure .indexOutOfRange, .none⟩)) ∧
    (r.toNat < a.rows → c.toNat < a.cols →
      ∃ v : Byte, exec (.matGet a r c) s = .next (s.finish ⟨.success (.scalar v), .none⟩) ∧
        v = if a.bit r.toNat c.toNat then 1 else 0)

/-- MAT.SET (R75): the bounds check, then the value check (the order is the spec's own choice, D16), then
one element changes. -/
def Obligations.SetElementResult : Prop :=
  ∀ (s : State) (a : Matrix) (r c v : Byte), a.wf = true →
    (encode (.matSet a r c v)).cmd = 0x04 ∧
    (a.rows ≤ r.toNat ∨ a.cols ≤ c.toNat →
      exec (.matSet a r c v) s = .next (s.finish ⟨.failure .indexOutOfRange, .none⟩)) ∧
    (r.toNat < a.rows → c.toNat < a.cols → 2 ≤ v.toNat →
      exec (.matSet a r c v) s = .next (s.finish ⟨.failure .invalidValue, .none⟩)) ∧
    (r.toNat < a.rows → c.toNat < a.cols → v.toNat ≤ 1 →
      ∃ m, exec (.matSet a r c v) s = .next (s.finish ⟨.success (.matrix m), .none⟩) ∧
        m.wf = true ∧ m.rows = a.rows ∧ m.cols = a.cols ∧
        m.bit r.toNat c.toNat = decide (v.toNat = 1) ∧
        (∀ i < a.rows, ∀ j < a.cols, ¬ (i = r.toNat ∧ j = c.toNat) → m.bit i j = a.bit i j) ∧
        (a.bit r.toNat c.toNat = decide (v.toNat = 1) → m = a))

/-- MAT.GETROW (R76); its failure out of range is the spec's own choice, D14. -/
def Obligations.GetRowResult : Prop :=
  ∀ (s : State) (a : Matrix) (r : Byte), a.wf = true →
    (encode (.matGetRow a r)).cmd = 0x05 ∧
    (a.rows ≤ r.toNat →
      exec (.matGetRow a r) s = .next (s.finish ⟨.failure .indexOutOfRange, .none⟩)) ∧
    (r.toNat < a.rows →
      ∃ b, exec (.matGetRow a r) s = .next (s.finish ⟨.success (.sequence b), .none⟩) ∧
        b.length = a.cols ∧ ∀ j < a.cols, b.getD j false = a.bit r.toNat j)

/-- MAT.MUL (R77), with the source's example. -/
def Obligations.MultiplyResult : Prop :=
  (∀ (s : State) (a b : Matrix), a.wf = true → b.wf = true →
    (encode (.matMul a b)).cmd = 0x06 ∧
    (a.cols ≠ b.rows →
      exec (.matMul a b) s = .next (s.finish ⟨.failure .dimensionMismatch, .none⟩)) ∧
    (a.cols = b.rows →
      ∃ m, exec (.matMul a b) s = .next (s.finish ⟨.success (.matrix m), .none⟩) ∧
        m.wf = true ∧ m.rows = a.rows ∧ m.cols = b.cols ∧
        (∀ i < a.rows, ∀ j < b.cols,
          m.bit i j = xorSum a.cols fun k => a.bit i k && b.bit k j) ∧
        ∀ i < a.rows, (∀ k < a.cols, a.bit i k = false) → ∀ j < b.cols, m.bit i j = false)) ∧
  ∀ s : State, exec (.matMul ⟨1, 4, [Config.bits [1, 1, 0, 0]]⟩
      ⟨4, 7, [Config.bits [1, 0, 0, 0, 0, 1, 1], Config.bits [0, 1, 0, 0, 1, 0, 1],
        Config.bits [0, 0, 1, 0, 1, 1, 0], Config.bits [0, 0, 0, 1, 1, 1, 1]]⟩) s =
    .next (s.finish ⟨.success (.matrix ⟨1, 7, [Config.bits [1, 1, 0, 0, 1, 1, 0]]⟩), .none⟩)

/-- MAT.ADD (R78): the strict shape check, the element-wise XOR, and addition its own inverse. -/
def Obligations.AddResult : Prop :=
  ∀ (s : State) (a b : Matrix), a.wf = true → b.wf = true →
    (encode (.matAdd a b)).cmd = 0x07 ∧
    (a.rows ≠ b.rows ∨ a.cols ≠ b.cols →
      exec (.matAdd a b) s = .next (s.finish ⟨.failure .dimensionMismatch, .none⟩)) ∧
    (a.rows = b.rows → a.cols = b.cols →
      ∃ m, exec (.matAdd a b) s = .next (s.finish ⟨.success (.matrix m), .none⟩) ∧
        m.wf = true ∧ m.rows = a.rows ∧ m.cols = a.cols ∧
        ∀ i < a.rows, ∀ j < a.cols, m.bit i j = (a.bit i j ^^ b.bit i j)) ∧
    exec (.matAdd a a) s = .next (s.finish ⟨.success (.matrix (zeroMatrix a.rows a.cols)), .none⟩) ∧
    exec (.matAdd a (zeroMatrix a.rows a.cols)) s = .next (s.finish ⟨.success (.matrix a), .none⟩)

/-- MAT.EQ (R79): 1 exactly for equal shapes and identical elements, never a failure. -/
def Obligations.EqualityResult : Prop :=
  ∀ (s : State) (a b : Matrix), a.wf = true → b.wf = true →
    (encode (.matEq a b)).cmd = 0x08 ∧
    ∃ v : Byte, exec (.matEq a b) s = .next (s.finish ⟨.success (.scalar v), .none⟩) ∧
      (v = 0 ∨ v = 1) ∧
      (v = 1 ↔ a.rows = b.rows ∧ a.cols = b.cols ∧
        ∀ i < a.rows, ∀ j < a.cols, a.bit i j = b.bit i j) ∧
      (v = 1 ↔ a = b)

/-- The laws of GF(2) matrices (40_binary_matrix_gf2.md section 4, of which the spec marks the later ones
as derived): addition its own inverse, distributivity on both sides,
commutativity, associativity, the zero matrix, and a row vector selecting rows. -/
def Obligations.MatrixAlgebraLaws : Prop :=
  (∀ a : Matrix, a.wf = true →
    add a a = .ok (zeroMatrix a.rows a.cols) ∧ add a (zeroMatrix a.rows a.cols) = .ok a) ∧
  (∀ a b : Matrix, add a b = add b a) ∧
  (∀ a b c : Matrix, a.rows = b.rows → a.cols = b.cols → b.rows = c.rows → b.cols = c.cols →
    (do add a (← add b c)) = (do add (← add a b) c)) ∧
  (∀ a b c : Matrix, a.cols = b.rows → b.rows = c.rows → b.cols = c.cols →
    ∃ m, (do mul a (← add b c)) = .ok m ∧ (do add (← mul a b) (← mul a c)) = .ok m) ∧
  (∀ a b c : Matrix, a.rows = b.rows → a.cols = b.cols → b.cols = c.rows →
    ∃ m, (do mul (← add a b) c) = .ok m ∧ (do add (← mul a c) (← mul b c)) = .ok m) ∧
  (∀ a b c : Matrix, a.cols = b.rows → b.cols = c.rows →
    ∃ m, (do mul a (← mul b c)) = .ok m ∧ (do mul (← mul a b) c) = .ok m) ∧
  ∀ x b : Matrix, x.rows = 1 → x.cols = b.rows →
    ∃ m, mul x b = .ok m ∧ m.rows = 1 ∧ m.cols = b.cols ∧
      ∀ j < b.cols, m.bit 0 j =
        ((List.range x.cols).filter fun k => x.bit 0 k).foldl (fun acc k => acc ^^ b.bit k j) false

/-! ## bit_packer -/

/-- BP.UNPACK (R100): the n low-order bits, most significant first. -/
def Obligations.UnpackResult : Prop :=
  ∀ (s : State) (value n : Byte),
    (encode (.bpUnpack value n)).cmd = 0x10 ∧
    (8 < n.toNat →
      exec (.bpUnpack value n) s = .next (s.finish ⟨.failure .invalidBitCount, .none⟩)) ∧
    (n.toNat ≤ 8 →
      ∃ b, exec (.bpUnpack value n) s = .next (s.finish ⟨.success (.sequence b), .none⟩) ∧
        b.length = n.toNat ∧ ∀ i < n.toNat, b.getD i false = value.getLsbD (n.toNat - 1 - i))

/-- BP.PACK (R101): absent or longer than 8 fails; else the sequence as an integer, most significant
first, below 2^L. -/
def Obligations.PackResult : Prop :=
  ∀ s : State,
    (∀ seq, (encode (.bpPack seq)).cmd = 0x11) ∧
    exec (.bpPack .absent) s = .next (s.finish ⟨.failure .invalidLength, .none⟩) ∧
    (∀ len : Byte, 8 < len.toNat →
      exec (.bpPack (.tooLong len)) s = .next (s.finish ⟨.failure .invalidLength, .none⟩)) ∧
    (∀ b : List Bool, b.length ≤ 8 →
      ∃ v : Byte, exec (.bpPack (.bits b)) s = .next (s.finish ⟨.success (.packed v), .none⟩) ∧
        v.toNat < 2 ^ b.length ∧
        ∀ i < b.length, v.getLsbD (b.length - 1 - i) = b.getD i false) ∧
    exec (.bpPack (.bits [])) s = .next (s.finish ⟨.success (.packed 0), .none⟩)

/-- Pack and Unpack are inverses (41_bit_packer.md R102, whose last law, the remainder modulo 2^n, the
spec marks as derived). -/
def Obligations.PackUnpackInverse : Prop :=
  ∀ s : State,
    (∀ v n : Byte, n.toNat ≤ 8 →
      ∃ b, exec (.bpUnpack v n) s = .next (s.finish ⟨.success (.sequence b), .none⟩) ∧
        ∃ w : Byte, exec (.bpPack (.bits b)) s = .next (s.finish ⟨.success (.packed w), .none⟩) ∧
          w.toNat = v.toNat % 2 ^ n.toNat ∧ (v.toNat < 2 ^ n.toNat → w = v)) ∧
    ∀ b : List Bool, b.length ≤ 8 →
      ∃ v : Byte, exec (.bpPack (.bits b)) s = .next (s.finish ⟨.success (.packed v), .none⟩) ∧
        exec (.bpUnpack v (BitVec.ofNat 8 b.length)) s =
          .next (s.finish ⟨.success (.sequence b), .none⟩)

/-! ## syndrome_lookup_table -/

/-- SYN.LOOKUP (R110): every index has its entry, index 0 the zero pattern; never a failure, and the
same entry every time. -/
def Obligations.SyndromeLookupResult : Prop :=
  ∀ (s : State) (z : BitVec 4),
    (encode (.synLookup z)).cmd = 0x20 ∧
    exec (.synLookup z) s = .next (s.finish ⟨.success (.pattern s.syn[z.toFin]), .none⟩) ∧
    (Admissible s → s.syn[z.toFin].wf = true ∧ s.syn[z.toFin].rows = 1 ∧ s.syn[z.toFin].cols = 8) ∧
    (Admissible s → exec (.synLookup 0) s =
      .next (s.finish ⟨.success (.pattern (zeroMatrix 1 8)), .none⟩))

/-- The table of this spec, byte by byte (R111). -/
def Obligations.SyndromeTableBytes : Prop :=
  ∀ (s : State) (z : BitVec 4), HasSpecConstants s →
    exec (.synLookup z) s = .next (s.finish ⟨.success (.pattern (rowOf
      ([0x00, 0x01, 0x02, 0x03, 0x04, 0x05, 0x06, 0x80, 0x08, 0x09, 0x0A, 0x40, 0x0C, 0x20, 0x10,
        0x11].getD z.toNat 0))), .none⟩)

/-- For any admissible constants: weight 0 exactly at index 0, weight 1 exactly at the syndromes of the
eight single errors, and every entry leads its coset back to a codeword (42_syndrome_lookup_table.md
R112, 95_test_vectors.md section 2.3). -/
def Obligations.TableEntryWeights : Prop :=
  ∀ s : State, Admissible s → ∀ z : BitVec 4,
    (weight (s.memReadSyn z) = 0 ↔ z = 0) ∧
    (weight (s.memReadSyn z) = 1 ↔
      ∃ i < 8, syndromeOf s.hTr (unitPattern i) = .ok z ∧ s.memReadSyn z = unitPattern i) ∧
    ∀ w : Byte, syndromeOfWord s w = .ok z →
      ∃ e : Byte, s.memReadSyn z = rowOf e ∧ IsCodeword s (w ^^^ e)

/-! ## hamming_encoder_8_4 -/

/-- HAM.ENCODE (R120), for any 4x8 generator: `c = s·G`, packed; the zero word maps to zero; the source's
example. -/
def Obligations.EncodeResult : Prop :=
  (∀ (s : State) (src : Byte), s.g.rows = 4 → s.g.cols = 8 →
    (encode (.hamEncode src)).cmd = 0x30 ∧
    ∃ cw : Byte, exec (.hamEncode src) s = .next (s.finish ⟨.success (.codeword cw), .none⟩) ∧
      (∀ j < 8, cw.getLsbD (7 - j) = xorSum 4 fun i => src.getLsbD (3 - i) && s.g.bit i j) ∧
      (src.extractLsb' 0 4 = 0 → cw = 0)) ∧
  ∀ s : State, Admissible s → exec (.hamEncode 0b1100) s =
    .next (s.finish ⟨.success (.codeword 0b11001100), .none⟩)

/-- The bit equations of the codeword (43_hamming_encoder_8_4.md R121, which the spec marks as derived from
its literal G). -/
def Obligations.EncodeBitEquations : Prop :=
  ∀ (s : State) (src : Byte), HasSpecConstants s →
    ∃ cw : Byte, exec (.hamEncode src) s = .next (s.finish ⟨.success (.codeword cw), .none⟩) ∧
      let s0 := src.getLsbD 3; let s1 := src.getLsbD 2; let s2 := src.getLsbD 1; let s3 := src.getLsbD 0
      cw.getLsbD 7 = s0 ∧ cw.getLsbD 6 = s1 ∧ cw.getLsbD 5 = s2 ∧ cw.getLsbD 4 = s3 ∧
      cw.getLsbD 3 = (s1 ^^ s2 ^^ s3) ∧ cw.getLsbD 2 = (s0 ^^ s2 ^^ s3) ∧
      cw.getLsbD 1 = (s0 ^^ s1 ^^ s3) ∧ cw.getLsbD 0 = (s0 ^^ s1 ^^ s2)

/-- The systematic property, for every admissible G (R122). -/
def Obligations.EncodeIsSystematic : Prop :=
  ∀ (s : State) (src : Byte), Admissible s →
    ∃ cw : Byte, exec (.hamEncode src) s = .next (s.finish ⟨.success (.codeword cw), .none⟩) ∧
      cw.extractLsb' 4 4 = src.extractLsb' 0 4

/-- The code (43_hamming_encoder_8_4.md R123): the list of codewords, and, marked by the spec as derived,
linearity and distance at least 4. -/
def Obligations.CodewordListLinearityDistance : Prop :=
  ∀ s : State, HasSpecConstants s →
    (∀ n < 16, exec (.hamEncode (BitVec.ofNat 8 n)) s = .next (s.finish ⟨.success (.codeword
      ([0x00, 0x1E, 0x2D, 0x33, 0x4B, 0x55, 0x66, 0x78, 0x87, 0x99, 0xAA, 0xB4, 0xCC, 0xD2, 0xE1,
        0xFF].getD n 0)), .none⟩)) ∧
    (∀ a b x y : Byte, encodeWord s.g a = .ok x → encodeWord s.g b = .ok y →
      encodeWord s.g (a ^^^ b) = .ok (x ^^^ y)) ∧
    ∀ x y : Byte, IsCodeword s x → IsCodeword s y → x ≠ y → 4 ≤ weight (rowOf (x ^^^ y))

/-- A word is a codeword exactly when its syndrome is 0, and a codeword decodes to its source word with
no event (43_hamming_encoder_8_4.md R124, which the spec marks as derived). -/
def Obligations.ZeroSyndromeExactlyForCodewords : Prop :=
  ∀ s : State, Admissible s →
    (∀ w : Byte, syndromeOfWord s w = .ok 0 ↔ IsCodeword s w) ∧
    ∀ src cw : Byte, encodeWord s.g src = .ok cw →
      exec (.hamDecode cw) s = .next (s.finish ⟨.success (.nibble (src.extractLsb' 0 4)), .none⟩)

/-! ## hamming_decoder_8_4 -/

/-- HAM.DECODE, for every received word and any admissible constants (44_hamming_decoder_8_4.md sections 1
and 2). The spec marks two clauses as derived: that nothing but the weight of the entry makes Decode fail
(R130), and that the corrected word is a codeword (R135). -/
def Obligations.DecodeResult : Prop :=
  ∀ (s : State) (cw : Byte), Admissible s →
    (encode (.hamDecode cw)).cmd = 0x40 ∧
    ∃ (z : BitVec 4) (e : Byte),
      (∀ j < 4, z.getLsbD (3 - j) = xorSum 8 fun i => cw.getLsbD (7 - i) && s.hTr.bit i j) ∧
      s.memReadSyn z = rowOf e ∧
      IsCodeword s (cw ^^^ e) ∧
      (weight (s.memReadSyn z) = 0 → e = 0 ∧ exec (.hamDecode cw) s =
        .next (s.finish ⟨.success (.nibble (cw.extractLsb' 4 4)), .none⟩)) ∧
      (weight (s.memReadSyn z) = 1 → exec (.hamDecode cw) s =
        .next (s.finish ⟨.success (.nibble ((cw ^^^ e).extractLsb' 4 4)), .oneBit⟩)) ∧
      (2 ≤ weight (s.memReadSyn z) → exec (.hamDecode cw) s =
        .next (s.finish ⟨.failure .uncorrectableError, .twoBit⟩))

/-- The syndrome depends only on the error, not on which codeword was sent; and its bit equations with
this spec's H_TR (44_hamming_decoder_8_4.md R132, both marked by the spec as derived). -/
def Obligations.SyndromeDependsOnlyOnTheError : Prop :=
  (∀ (s : State) (c0 e : Byte), Admissible s → IsCodeword s c0 →
    syndromeOfWord s (c0 ^^^ e) = syndromeOfWord s e) ∧
  ∀ (s : State) (cw : Byte), HasSpecConstants s → ∃ z, syndromeOfWord s cw = .ok z ∧
    z.getLsbD 3 = (cw.getLsbD 6 ^^ cw.getLsbD 5 ^^ cw.getLsbD 4 ^^ cw.getLsbD 3) ∧
    z.getLsbD 2 = (cw.getLsbD 7 ^^ cw.getLsbD 5 ^^ cw.getLsbD 4 ^^ cw.getLsbD 2) ∧
    z.getLsbD 1 = (cw.getLsbD 7 ^^ cw.getLsbD 6 ^^ cw.getLsbD 4 ^^ cw.getLsbD 1) ∧
    z.getLsbD 0 = (cw.getLsbD 7 ^^ cw.getLsbD 6 ^^ cw.getLsbD 5 ^^ cw.getLsbD 0)

/-- Decode has exactly two terminal outcomes, never fails for a representative of weight at most 1, and
over the 256 inputs splits 16, 128, 112 with the constants of this spec (44_hamming_decoder_8_4.md R136;
the counts are marked by the spec as derived). -/
def Obligations.DecodeTerminalOutcomes : Prop :=
  (∀ (s : State) (cw : Byte), Admissible s →
    ((∃ nib d, exec (.hamDecode cw) s = .next (s.finish ⟨.success (.nibble nib), d⟩)) ∨
      ∃ d, exec (.hamDecode cw) s = .next (s.finish ⟨.failure .uncorrectableError, d⟩)) ∧
    (∀ z, syndromeOfWord s cw = .ok z → z = 0 ∨ weight (s.memReadSyn z) ≤ 1 →
      ∃ nib d, exec (.hamDecode cw) s = .next (s.finish ⟨.success (.nibble nib), d⟩))) ∧
  ((List.range 256).countP fun n => (outcomeOf (.hamDecode (BitVec.ofNat 8 n)) State.reset).any
    fun o => o.succeeded && decide (o.diag = .none)) = 16 ∧
  ((List.range 256).countP fun n => (outcomeOf (.hamDecode (BitVec.ofNat 8 n)) State.reset).any
    fun o => o.succeeded && decide (o.diag = .oneBit)) = 128 ∧
  ((List.range 256).countP fun n => (outcomeOf (.hamDecode (BitVec.ofNat 8 n)) State.reset).any
    fun o => decide (o = ⟨.failure .uncorrectableError, .twoBit⟩)) = 112

/-- The codec's guarantees (R137), for any constants that meet R15: round trip, every single error
corrected with event 1, every double error an UncorrectableError with event 2. -/
def Obligations.CodecGuarantees : Prop :=
  ∀ (s : State) (src : Byte), Admissible s →
    ∃ cw : Byte, exec (.hamEncode src) s = .next (s.finish ⟨.success (.codeword cw), .none⟩) ∧
      exec (.hamDecode cw) s = .next (s.finish ⟨.success (.nibble (src.extractLsb' 0 4)), .none⟩) ∧
      (∀ p < 8, exec (.hamDecode (cw ^^^ (1#8 <<< p))) s =
        .next (s.finish ⟨.success (.nibble (src.extractLsb' 0 4)), .oneBit⟩)) ∧
      ∀ mask : Byte, weight (rowOf mask) = 2 → exec (.hamDecode (cw ^^^ mask)) s =
        .next (s.finish ⟨.failure .uncorrectableError, .twoBit⟩)

/-- No outcome of Decode depends on which admissible parity-check matrix and syndrome table are taken
(R113, 92_eei_decisions.md D2 and D3). -/
def Obligations.DecodeSameForEveryAdmissibleTable : Prop :=
  ∀ (s s' : State) (cw : Byte), Admissible s → Admissible s' → s.g = s'.g →
    ∀ o, exec (.hamDecode cw) s = .next (s.finish o) ↔ exec (.hamDecode cw) s' = .next (s'.finish o)

/-- Beyond two errors: what Decode answers for every codeword and every mask of weight 3 to 8
(44_hamming_decoder_8_4.md R138, which the spec marks as derived). -/
def Obligations.OutcomesBeyondTwoErrors : Prop :=
  (∀ (s : State) (src cw mask : Byte), HasSpecConstants s → encodeWord s.g src = .ok cw →
    ((weight (rowOf mask) = 3 ∨ weight (rowOf mask) = 5 ∨ weight (rowOf mask) = 7) →
      ∃ nib, exec (.hamDecode (cw ^^^ mask)) s = .next (s.finish ⟨.success (.nibble nib), .oneBit⟩) ∧
        nib ≠ src.extractLsb' 0 4) ∧
    ((weight (rowOf mask) = 4 ∧ IsCodeword s mask) ∨ mask = 0xFF →
      ∃ nib, exec (.hamDecode (cw ^^^ mask)) s = .next (s.finish ⟨.success (.nibble nib), .none⟩) ∧
        nib ≠ src.extractLsb' 0 4) ∧
    ((weight (rowOf mask) = 4 ∧ ¬ IsCodeword s mask) ∨ weight (rowOf mask) = 6 →
      exec (.hamDecode (cw ^^^ mask)) s = .next (s.finish ⟨.failure .uncorrectableError, .twoBit⟩))) ∧
  ((List.range 256).countP fun n => decide (weight (rowOf (BitVec.ofNat 8 n)) = 4) &&
    (List.range 16).any fun m => decide (encodeWord Config.g (BitVec.ofNat 8 m) =
      .ok (BitVec.ofNat 8 n))) = 14 ∧
  ((List.range 256).countP fun n => decide (weight (rowOf (BitVec.ofNat 8 n)) = 4) &&
    !(List.range 16).any fun m => decide (encodeWord Config.g (BitVec.ofNat 8 m) =
      .ok (BitVec.ofNat 8 n))) = 56

/-- Encode and Decode are the fixed compositions of the lower operations (R60), each served as a
transaction of its own. -/
def Obligations.CodecIsItsComposition : Prop :=
  (∀ (s : State) (src : Byte), Admissible s →
    ∃ b m c q w, exec (.bpUnpack src 4) s = .next (s.finish ⟨.success (.sequence b), .none⟩) ∧
      exec (.matConstruct [b]) s = .next (s.finish ⟨.success (.matrix m), .none⟩) ∧
      exec (.matMul m s.g) s = .next (s.finish ⟨.success (.matrix c), .none⟩) ∧
      exec (.matGetRow c 0) s = .next (s.finish ⟨.success (.sequence q), .none⟩) ∧
      exec (.bpPack (.bits q)) s = .next (s.finish ⟨.success (.packed w), .none⟩) ∧
      exec (.hamEncode src) s = .next (s.finish ⟨.success (.codeword w), .none⟩)) ∧
  ∀ (s : State) (cw : Byte), Admissible s →
    ∃ b r z zr zi e, exec (.bpUnpack cw 8) s = .next (s.finish ⟨.success (.sequence b), .none⟩) ∧
      exec (.matConstruct [b]) s = .next (s.finish ⟨.success (.matrix r), .none⟩) ∧
      exec (.matMul r s.hTr) s = .next (s.finish ⟨.success (.matrix z), .none⟩) ∧
      exec (.matGetRow z 0) s = .next (s.finish ⟨.success (.sequence zr), .none⟩) ∧
      exec (.bpPack (.bits zr)) s = .next (s.finish ⟨.success (.packed zi), .none⟩) ∧
      zi.toNat < 16 ∧
      exec (.synLookup (zi.setWidth 4)) s = .next (s.finish ⟨.success (.pattern e), .none⟩) ∧
      (2 ≤ weight e → exec (.hamDecode cw) s =
        .next (s.finish ⟨.failure .uncorrectableError, .twoBit⟩)) ∧
      (weight e ≤ 1 →
        ∃ c q w, exec (.matAdd r e) s = .next (s.finish ⟨.success (.matrix c), .none⟩) ∧
          exec (.matGetRow c 0) s = .next (s.finish ⟨.success (.sequence q), .none⟩) ∧
          exec (.bpPack (.bits q)) s = .next (s.finish ⟨.success (.packed w), .none⟩) ∧
          exec (.hamDecode cw) s = .next (s.finish
            ⟨.success (.nibble (w.extractLsb' 4 4)), if weight e = 0 then .none else .oneBit⟩))
end

