-- ==== Sys2Proof/Laws/Gf2.lean ====
section
/-! SUPPORT. Elements, shapes and equality of matrix values, and sums over GF(2). -/

namespace Sys2Proof

@[simp] theorem Matrix.rows_ofFn (m n : Nat) (f : Nat → Nat → Bool) : (Matrix.ofFn m n f).rows = m := rfl

@[simp] theorem Matrix.cols_ofFn (m n : Nat) (f : Nat → Nat → Bool) : (Matrix.ofFn m n f).cols = n := rfl

theorem List.getD_map_range {α : Type} (n i : Nat) (f : Nat → α) (d : α) :
    ((List.range n).map f).getD i d = if i < n then f i else d := by
  by_cases h : i < n <;> simp [h]

theorem Matrix.bit_ofFn (m n : Nat) (f : Nat → Nat → Bool) (r c : Nat) :
    (Matrix.ofFn m n f).bit r c = (decide (r < m) && (decide (c < n) && f r c)) := by
  unfold Matrix.bit Matrix.ofFn
  rw [List.getD_map_range]
  split <;> rename_i h
  · rw [List.getD_map_range]; split <;> simp_all
  · simp [h]

@[simp] theorem Matrix.bit_ofFn_of_lt {m n r c : Nat} (f : Nat → Nat → Bool) (hr : r < m) (hc : c < n) :
    (Matrix.ofFn m n f).bit r c = f r c := by
  simp [Matrix.bit_ofFn, hr, hc]

/-- What `Matrix.wf` says, as a proposition. -/
theorem Matrix.wf_iff (m : Matrix) : m.wf = true ↔
    (1 ≤ m.rows ∧ m.rows ≤ 8) ∧ (1 ≤ m.cols ∧ m.cols ≤ 8) ∧
    m.elems.length = m.rows ∧ ∀ row ∈ m.elems, row.length = m.cols := by
  simp only [Matrix.wf, Bool.and_eq_true, decide_eq_true_eq, List.all_eq_true, and_assoc]

theorem Matrix.wf_ofFn {m n : Nat} (f : Nat → Nat → Bool) (hm : 1 ≤ m ∧ m ≤ 8) (hn : 1 ≤ n ∧ n ≤ 8) :
    (Matrix.ofFn m n f).wf = true := by
  rw [Matrix.wf_iff]
  refine ⟨hm, hn, by simp [Matrix.ofFn], ?_⟩
  intro row hrow
  simp only [Matrix.ofFn, List.mem_map] at hrow
  obtain ⟨r, -, rfl⟩ := hrow
  simp [Matrix.ofFn]

/-- A matrix value is the table of its elements. -/
theorem Matrix.eq_ofFn_of_wf {m : Matrix} (h : m.wf = true) : m = Matrix.ofFn m.rows m.cols m.bit := by
  obtain ⟨-, -, hl, hrow⟩ := (Matrix.wf_iff m).1 h
  obtain ⟨rows, cols, elems⟩ := m
  simp only at hl hrow
  subst hl
  simp only [Matrix.ofFn, Matrix.mk.injEq, true_and]
  apply List.ext_getElem (by simp)
  intro r hr _
  simp only [List.getElem_map, List.getElem_range]
  have hlen := hrow _ (List.getElem_mem hr)
  apply List.ext_getElem (by simp [hlen])
  intro c hc _
  simp [Matrix.bit, hr, hc]

theorem Matrix.ofFn_congr {m n : Nat} {f g : Nat → Nat → Bool} (h : ∀ r < m, ∀ c < n, f r c = g r c) :
    Matrix.ofFn m n f = Matrix.ofFn m n g := by
  simp only [Matrix.ofFn, Matrix.mk.injEq, true_and]
  apply List.map_congr_left
  intro r hr
  apply List.map_congr_left
  intro c hc
  exact h r (List.mem_range.1 hr) c (List.mem_range.1 hc)

/-- Two matrix values with the same shape and the same elements are equal. -/
theorem Matrix.ext_of_wf {a b : Matrix} (ha : a.wf = true) (hb : b.wf = true) (hr : a.rows = b.rows)
    (hc : a.cols = b.cols) (h : ∀ r < a.rows, ∀ c < a.cols, a.bit r c = b.bit r c) : a = b := by
  rw [Matrix.eq_ofFn_of_wf ha, Matrix.eq_ofFn_of_wf hb, ← hr, ← hc]
  exact Matrix.ofFn_congr h

@[simp] theorem Matrix.length_rowBits (m : Matrix) (r : Nat) : (m.rowBits r).length = m.cols := by
  simp [Matrix.rowBits]

theorem Matrix.getD_rowBits (m : Matrix) (r c : Nat) :
    (m.rowBits r).getD c false = (decide (c < m.cols) && m.bit r c) := by
  unfold Matrix.rowBits
  rw [List.getD_map_range]
  split <;> simp_all

@[simp] theorem xorSum_zero (f : Nat → Bool) : xorSum 0 f = false := rfl

@[simp] theorem xorSum_succ (n : Nat) (f : Nat → Bool) : xorSum (n + 1) f = (xorSum n f ^^ f n) := rfl

theorem xorSum_congr {n : Nat} {f g : Nat → Bool} (h : ∀ k < n, f k = g k) : xorSum n f = xorSum n g := by
  induction n with
  | zero => rfl
  | succ n ih =>
    rw [xorSum_succ, xorSum_succ, ih fun k hk => h k (by omega), h n (by omega)]

@[simp] theorem xorSum_false (n : Nat) : xorSum n (fun _ => false) = false := by
  induction n with
  | zero => rfl
  | succ n ih => simp [ih]

theorem xorSum_xor (n : Nat) (f g : Nat → Bool) :
    xorSum n (fun k => f k ^^ g k) = (xorSum n f ^^ xorSum n g) := by
  induction n with
  | zero => rfl
  | succ n ih => simp only [xorSum_succ, ih]; cases xorSum n f <;> cases f n <;> simp

theorem xorSum_and_left (n : Nat) (x : Bool) (f : Nat → Bool) :
    xorSum n (fun k => x && f k) = (x && xorSum n f) := by
  cases x <;> simp

theorem xorSum_and_right (n : Nat) (x : Bool) (f : Nat → Bool) :
    xorSum n (fun k => f k && x) = (xorSum n f && x) := by
  cases x <;> simp

/-- The order of a double sum does not matter. -/
theorem xorSum_comm (m n : Nat) (f : Nat → Nat → Bool) :
    xorSum m (fun i => xorSum n fun j => f i j) = xorSum n (fun j => xorSum m fun i => f i j) := by
  induction m with
  | zero => simp
  | succ m ih => simp only [xorSum_succ, ih, xorSum_xor]

/-- A sum with one possible non-zero term. -/
theorem xorSum_single {n k : Nat} (hk : k < n) (f : Nat → Bool) :
    xorSum n (fun j => decide (j = k) && f j) = f k := by
  induction n with
  | zero => omega
  | succ n ih =>
    rw [xorSum_succ]
    by_cases h : k < n
    · rw [ih h]; simp [show n ≠ k by omega]
    · obtain rfl : k = n := by omega
      rw [xorSum_congr (g := fun _ => false) fun j hj => by simp [show j ≠ k by omega]]
      simp

end Sys2Proof
end

