-- ==== Sys2Proof/Laws/State.lean ====
section
/-! SUPPORT. One lemma per field per update of the state, and all the ways a transaction can end. -/

namespace Sys2Proof.Machine

@[simp] theorem State.finish_g (s : State) (o : Response) : (s.finish o).g = s.g := rfl
@[simp] theorem State.finish_hTr (s : State) (o : Response) : (s.finish o).hTr = s.hTr := rfl
@[simp] theorem State.finish_syn (s : State) (o : Response) : (s.finish o).syn = s.syn := rfl
@[simp] theorem State.finish_requests (s : State) (o : Response) : (s.finish o).requests = s.requests := rfl
@[simp] theorem State.finish_outcome (s : State) (o : Response) : (s.finish o).outcome = some o := rfl
@[simp] theorem State.finish_memReadSyn (s : State) (o : Response) (z : BitVec 4) :
    (s.finish o).memReadSyn z = s.memReadSyn z := rfl
@[simp] theorem State.finish_finish (s : State) (o o' : Response) : (s.finish o).finish o' = s.finish o' := rfl

@[simp] theorem State.served_g (s : State) : s.served.g = s.g := rfl
@[simp] theorem State.served_hTr (s : State) : s.served.hTr = s.hTr := rfl
@[simp] theorem State.served_syn (s : State) : s.served.syn = s.syn := rfl
@[simp] theorem State.served_requests (s : State) : s.served.requests = s.requests.tail := rfl
@[simp] theorem State.served_outcome (s : State) : s.served.outcome = s.outcome := rfl

@[simp] theorem State.present_g (s : State) (q : Request) : (s.present q).g = s.g := rfl
@[simp] theorem State.present_hTr (s : State) (q : Request) : (s.present q).hTr = s.hTr := rfl
@[simp] theorem State.present_syn (s : State) (q : Request) : (s.present q).syn = s.syn := rfl
@[simp] theorem State.present_requests (s : State) (q : Request) :
    (s.present q).requests = s.requests ++ [q] := rfl
@[simp] theorem State.present_outcome (s : State) (q : Request) : (s.present q).outcome = s.outcome := rfl

/-- The constraints are on the constants alone. -/
theorem Admissible.congr {s t : State} (hg : t.g = s.g) (hh : t.hTr = s.hTr) (hs : t.syn = s.syn)
    (h : Admissible s) : Admissible t := by
  cases s; cases t
  subst hg hh hs
  exact ⟨h.1, h.2, h.3, h.4, h.5, h.6, h.7, h.8, h.9, h.10, h.11⟩

theorem Admissible.finish {s : State} (h : Admissible s) (o : Response) : Admissible (s.finish o) :=
  Admissible.congr (s := s) (t := s.finish o) rfl rfl rfl h

theorem Admissible.served {s : State} (h : Admissible s) : Admissible s.served :=
  Admissible.congr (s := s) (t := s.served) rfl rfl rfl h

/-! ## How a transaction ends -/

@[simp] theorem conclude_ok (r : Result) (d : Diag) (s : State) :
    conclude (.ok (r, d)) s = .next (s.finish ⟨.success r, d⟩) := rfl

@[simp] theorem conclude_failure (k : FailureKind) (d : Diag) (s : State) :
    conclude (.error (.failure k d)) s = .next (s.finish ⟨.failure k, d⟩) := rfl

@[simp] theorem conclude_refusal (r : Refusal) (s : State) :
    conclude (.error (.refusal r)) s = .refused r := rfl

/-- All that a transaction can do to the state: give it an outcome. -/
theorem conclude_next {x : Tx (Result × Diag)} {s t : State} (h : conclude x s = .next t) :
    (∃ r d, x = .ok (r, d) ∧ t = s.finish ⟨.success r, d⟩) ∨
    (∃ k d, x = .error (.failure k d) ∧ t = s.finish ⟨.failure k, d⟩) := by
  match x, h with
  | .ok (r, d), h => exact .inl ⟨r, d, rfl, by simpa [eq_comm] using h⟩
  | .error (.failure k d), h => exact .inr ⟨k, d, rfl, by simpa [eq_comm] using h⟩

/-- A success that the caller reads is what the operation computed. -/
theorem conclude_eq_success {x : Tx (Result × Diag)} {s t : State} {r : Result} {d : Diag}
    (h : conclude x s = .next t) (ht : t.outcome = some ⟨.success r, d⟩) : x = .ok (r, d) := by
  obtain ⟨_, _, rfl, rfl⟩ | ⟨_, _, rfl, rfl⟩ := conclude_next h <;> simp at ht
  simp [ht]

/-- A failure that the caller reads is one that the operation raised. -/
theorem conclude_eq_failure {x : Tx (Result × Diag)} {s t : State} {k : FailureKind} {d : Diag}
    (h : conclude x s = .next t) (ht : t.outcome = some ⟨.failure k, d⟩) : x = .error (.failure k d) := by
  obtain ⟨_, _, rfl, rfl⟩ | ⟨_, _, rfl, rfl⟩ := conclude_next h <;> simp at ht
  simp [ht]

/-- A transaction never stops the machine with a fault. -/
theorem conclude_ne_fault (x : Tx (Result × Diag)) (s : State) (f : Fault) : conclude x s ≠ .fault f := by
  cases f

theorem State.finish_inj {s : State} {o o' : Response} : s.finish o = s.finish o' ↔ o = o' :=
  ⟨fun h => by simpa using congrArg State.outcome h, fun h => h ▸ rfl⟩

end Sys2Proof.Machine
end

