-- ==== Sys2Proof/Laws/Ops.lean ====
section
/-! SUPPORT. What each shared operation answers, said once. -/

namespace Sys2Proof.Machine

theorem matrixOperand_eq_ok {m : Matrix} (h : m.wf = true) : matrixOperand m = .ok () := by
  simp [matrixOperand, h]

theorem rowsOperand_eq_ok {rows : List (List Bool)} (h : rowsWithinMaxDim rows = true) :
    rowsOperand rows = .ok () := by
  simp [rowsOperand, h]

/-! ## construct -/

/-- The two shape checks on a non-empty sequence of rows. -/
theorem construct_cons (first : List Bool) (rest : List (List Bool)) : construct (first :: rest) =
    if (first :: rest).any (fun row => decide (row.length = 0)) then raise .invalidShape
    else if (first :: rest).any (fun row => decide (row.length ≠ first.length)) then raise .invalidShape
    else .ok ⟨(first :: rest).length, first.length, first :: rest⟩ := rfl

/-- The rows that MAT.CONSTRUCT refuses as a shape (R71). -/
theorem construct_of_badShape {rows : List (List Bool)}
    (h : rows = [] ∨ [] ∈ rows ∨ ∃ x ∈ rows, ∃ y ∈ rows, x.length ≠ y.length) :
    construct rows = raise .invalidShape := by
  cases rows with
  | nil => rfl
  | cons first rest =>
    rw [construct_cons]
    split_ifs with h1 h2
    · rfl
    · rfl
    simp only [List.any_eq_true, decide_eq_true_eq, not_exists, not_and, not_not] at h1 h2
    rcases h with h | h | ⟨x, hx, y, hy, hxy⟩
    · cases h
    · exact absurd rfl (h1 [] h)
    · exact absurd ((h2 x hx).trans (h2 y hy).symm) hxy

theorem construct_of_goodShape {rows : List (List Bool)} {n : Nat} (hne : rows ≠ []) (hn : 0 < n)
    (h : ∀ row ∈ rows, row.length = n) : construct rows = .ok ⟨rows.length, n, rows⟩ := by
  cases rows with
  | nil => exact absurd rfl hne
  | cons first rest =>
    have hf : first.length = n := h first (by simp)
    rw [construct_cons, if_neg, if_neg, hf]
    · simp only [List.any_eq_true, decide_eq_true_eq, not_exists, not_and, not_not]
      intro row hrow; rw [h row hrow, hf]
    · simp only [List.any_eq_true, decide_eq_true_eq, not_exists, not_and]
      intro row hrow; rw [h row hrow]; omega

/-- One row: what the codec constructs. -/
theorem construct_single {b : List Bool} (h : b.length ≠ 0) : construct [b] = .ok ⟨1, b.length, [b]⟩ :=
  construct_of_goodShape (by simp) (by omega) (by simp)

/-- A constructed matrix is a matrix value. -/
theorem construct_wf {rows : List (List Bool)} {m : Matrix} (hr : rowsWithinMaxDim rows = true)
    (h : construct rows = .ok m) : m.wf = true := by
  cases rows with
  | nil => cases h
  | cons first rest =>
    rw [construct_cons] at h
    split_ifs at h with h1 h2
    · cases h
    · cases h
    simp only [List.any_eq_true, decide_eq_true_eq, not_exists, not_and, not_not] at h1 h2
    obtain rfl : _ = m := by simpa using h
    simp only [rowsWithinMaxDim, Bool.and_eq_true, decide_eq_true_eq, List.all_eq_true] at hr
    have hf1 := h1 first (by simp)
    have hf8 := hr.2 first (by simp)
    exact (Matrix.wf_iff _).2 ⟨⟨by simp, hr.1⟩, ⟨by simp only; omega, hf8⟩, rfl, h2⟩

/-! ## getElement, setElement, getRow -/

theorem getElement_eq_ok {m : Matrix} {r c : Byte} (hr : r.toNat < m.rows) (hc : c.toNat < m.cols) :
    getElement m r c = .ok (m.bit r.toNat c.toNat) := by
  unfold getElement; rw [if_neg (by omega)]

theorem getElement_outOfRange {m : Matrix} {r c : Byte} (h : m.rows ≤ r.toNat ∨ m.cols ≤ c.toNat) :
    getElement m r c = raise .indexOutOfRange := by
  unfold getElement; rw [if_pos (by omega)]

theorem setElement_outOfRange {m : Matrix} {r c : Byte} (v : Byte)
    (h : m.rows ≤ r.toNat ∨ m.cols ≤ c.toNat) : setElement m r c v = raise .indexOutOfRange := by
  unfold setElement; rw [if_pos (by omega)]

theorem setElement_badValue {m : Matrix} {r c v : Byte} (hr : r.toNat < m.rows) (hc : c.toNat < m.cols)
    (h : v ≠ 0 ∧ v ≠ 1) : setElement m r c v = raise .invalidValue := by
  unfold setElement; rw [if_neg (by omega), if_pos h]

theorem setElement_eq_ok {m : Matrix} {r c v : Byte} (hr : r.toNat < m.rows) (hc : c.toNat < m.cols)
    (h : v = 0 ∨ v = 1) : setElement m r c v = .ok (Matrix.ofFn m.rows m.cols fun i j =>
      if i = r.toNat ∧ j = c.toNat then decide (v = 1) else m.bit i j) := by
  unfold setElement; rw [if_neg (by omega), if_neg (by tauto)]

theorem getRow_eq_ok {m : Matrix} {r : Byte} (hr : r.toNat < m.rows) :
    getRow m r = .ok (m.rowBits r.toNat) := by
  unfold getRow; rw [if_neg (by omega)]

theorem getRow_outOfRange {m : Matrix} {r : Byte} (hr : m.rows ≤ r.toNat) :
    getRow m r = raise .indexOutOfRange := by
  unfold getRow; rw [if_pos (by omega)]

/-! ## mul, add, equal -/

theorem mul_eq_ok {a b : Matrix} (h : a.cols = b.rows) : mul a b =
    .ok (Matrix.ofFn a.rows b.cols fun i j => xorSum a.cols fun k => a.bit i k && b.bit k j) := by
  unfold mul; rw [if_neg (by simpa using h)]

theorem mul_mismatch {a b : Matrix} (h : a.cols ≠ b.rows) : mul a b = raise .dimensionMismatch := by
  unfold mul; rw [if_pos h]

theorem mul_eq_ok_iff {a b m : Matrix} : mul a b = .ok m ↔ a.cols = b.rows ∧
    m = Matrix.ofFn a.rows b.cols fun i j => xorSum a.cols fun k => a.bit i k && b.bit k j := by
  unfold mul
  split_ifs with h
  · simp [raise]; intro h'; exact absurd h' h
  · simp only [ne_eq, not_not] at h; simp [h, eq_comm]

theorem add_eq_ok {a b : Matrix} (hr : a.rows = b.rows) (hc : a.cols = b.cols) :
    add a b = .ok (Matrix.ofFn a.rows a.cols fun i j => a.bit i j ^^ b.bit i j) := by
  unfold add; rw [if_neg (by simp [hr, hc])]

theorem add_mismatch {a b : Matrix} (h : a.rows ≠ b.rows ∨ a.cols ≠ b.cols) :
    add a b = raise .dimensionMismatch := by
  unfold add; rw [if_pos h]

/-- MAT.EQ compares matrix values as values (R79). -/
theorem equal_iff {a b : Matrix} (ha : a.wf = true) (hb : b.wf = true) : equal a b = true ↔ a = b := by
  simp only [equal, Bool.and_eq_true, decide_eq_true_eq, List.all_eq_true, List.mem_range, beq_iff_eq,
    and_assoc]
  constructor
  · rintro ⟨hr, hc, h⟩; exact Matrix.ext_of_wf ha hb hr hc h
  · rintro rfl; simp

/-! ## unpack, pack -/

theorem unpack_eq_ok {value n : Byte} (h : n.toNat ≤ 8) : unpack value n =
    .ok ((List.range n.toNat).map fun i => value.getLsbD (n.toNat - 1 - i)) := by
  unfold unpack; rw [if_neg (by omega)]

theorem unpack_badCount {value n : Byte} (h : 8 < n.toNat) : unpack value n = raise .invalidBitCount := by
  unfold unpack; rw [if_pos h]

theorem pack_eq_ok {b : List Bool} (h : b.length ≤ 8) : pack b = .ok (packBits b) := by
  unfold pack; rw [if_neg (by omega)]

theorem pack_tooLong {b : List Bool} (h : 8 < b.length) : pack b = raise .invalidLength := by
  unfold pack; rw [if_pos h]

theorem packBits_append_singleton (b : List Bool) (x : Bool) :
    packBits (b ++ [x]) = (packBits b <<< 1) ||| bitByte x := by
  simp [packBits]

theorem getLsbD_bitByte (x : Bool) (i : Nat) : (bitByte x).getLsbD i = (decide (i = 0) && x) := by
  cases x <;> cases i <;> simp [bitByte]

/-- Bit i of a packed sequence is its element i from the end (R101, R31). -/
theorem getLsbD_packBits (b : List Bool) {i : Nat} (hi : i < 8) :
    (packBits b).getLsbD i = b.reverse.getD i false := by
  induction b using List.reverseRecOn generalizing i with
  | nil => simp [packBits]
  | append_singleton b x ih =>
    rw [packBits_append_singleton, BitVec.getLsbD_or, BitVec.getLsbD_shiftLeft, getLsbD_bitByte]
    cases i with
    | zero => simp
    | succ i =>
      have := ih (i := i) (by omega)
      simp [this, show i + 1 < 8 by omega]

/-- The same with the element's own index: element j of n is bit n-1-j. -/
theorem getLsbD_packBits_sub {b : List Bool} {j : Nat} (hb : b.length ≤ 8) (hj : j < b.length) :
    (packBits b).getLsbD (b.length - 1 - j) = b.getD j false := by
  rw [getLsbD_packBits b (by omega), List.getD_eq_getElem?_getD, List.getD_eq_getElem?_getD,
    List.getElem?_reverse (by omega)]
  congr 2; omega

/-! ## Decode's classification -/

theorem classify_zero {m : Matrix} (h : weight m = 0) : classify m = .ok .none := by
  simp [classify, cappedCount, h, diagOfCount]

theorem classify_one {m : Matrix} (h : weight m = 1) : classify m = .ok .oneBit := by
  simp [classify, cappedCount, h, diagOfCount]

theorem classify_two {m : Matrix} (h : 2 ≤ weight m) :
    classify m = .error (.failure .uncorrectableError .twoBit) := by
  have hc : cappedCount m = 2 := by simp only [cappedCount]; omega
  simp [classify, hc, diagOfCount]

end Sys2Proof.Machine
end

