-- ==== Sys2Proof/Laws/Codec.lean ====
section
/-! SUPPORT. What the steps of Encode and Decode answer, bit by bit. -/

namespace Sys2Proof.Machine

/-- Two words with the same bits, counted from the most significant end, are equal. -/
theorem eq_of_bits {n : Nat} {x y : BitVec n} (h : ∀ j < n, x.getLsbD (n - 1 - j) = y.getLsbD (n - 1 - j)) :
    x = y := by
  apply BitVec.eq_of_getLsbD_eq
  intro i hi
  have := h (n - 1 - i) (by omega)
  rwa [show n - 1 - (n - 1 - i) = i by omega] at this

@[simp] theorem rowOf_rows (w : Byte) : (rowOf w).rows = 1 := rfl
@[simp] theorem rowOf_cols (w : Byte) : (rowOf w).cols = 8 := rfl

theorem rowOf_bit (w : Byte) {j : Nat} (hj : j < 8) : (rowOf w).bit 0 j = w.getLsbD (7 - j) := by
  simp [rowOf, hj]

theorem rowOf_wf (w : Byte) : (rowOf w).wf = true := Matrix.wf_ofFn _ (by simp) (by simp)

/-- Every 1x8 matrix value is the row vector of a word. -/
theorem exists_eq_rowOf {m : Matrix} (h : m.wf = true) (hr : m.rows = 1) (hc : m.cols = 8) :
    ∃ w : Byte, m = rowOf w ∧ ∀ j < 8, w.getLsbD (7 - j) = m.bit 0 j := by
  have hb : ∀ j < 8, (packBits (m.rowBits 0)).getLsbD (7 - j) = m.bit 0 j := by
    intro j hj
    have := getLsbD_packBits_sub (b := m.rowBits 0) (j := j) (by simp [hc]) (by simp [hc, hj])
    rw [Matrix.getD_rowBits] at this
    simpa [hc, hj] using this
  refine ⟨packBits (m.rowBits 0), ?_, hb⟩
  refine Matrix.ext_of_wf h (rowOf_wf _) hr hc fun r hr' c hc' => ?_
  obtain rfl : r = 0 := by omega
  rw [rowOf_bit _ (by omega), hb c (by omega)]

/-- Step 1 of Decode: the received word's row vector (R131). -/
theorem receivedRow_eq (cw : Byte) : receivedRow cw = .ok (rowOf cw) := rfl

/-- The packed row 0 of a matrix of at most eight columns. -/
theorem pack_getRow_zero {m : Matrix} (hr : 1 ≤ m.rows) (hc : m.cols ≤ 8) :
    ∃ v : Byte, (getRow m 0 >>= pack) = .ok v ∧ v.toNat < 2 ^ m.cols ∧
      ∀ j < m.cols, v.getLsbD (m.cols - 1 - j) = m.bit 0 j := by
  refine ⟨packBits (m.rowBits 0), ?_, ?_, ?_⟩
  · rw [getRow_eq_ok (show (0 : Byte).toNat < m.rows by simp; omega), except_bind_ok,
      pack_eq_ok (by simpa using hc)]; rfl
  · refine Nat.lt_pow_two_of_testBit _ fun i hi => ?_
    by_cases h8 : i < 8
    · change (packBits (m.rowBits 0)).getLsbD i = false
      rw [getLsbD_packBits _ h8, List.getD_eq_default _ _ (by simpa using hi)]
    · exact BitVec.getLsbD_of_ge _ _ (by omega)
  · intro j hj
    have := getLsbD_packBits_sub (b := m.rowBits 0) (j := j) (by simpa using hc) (by simpa using hj)
    rw [Matrix.getD_rowBits] at this
    simpa [hj] using this

/-- Step 2 of Decode, on any row vector that fits (R132, R47): bit 3-j of the index is element j of the
syndrome. -/
theorem syndromeOf_spec {hTr r : Matrix} (hr : 1 ≤ r.rows) (hrc : r.cols = hTr.rows) (hc : hTr.cols = 4) :
    ∃ z : BitVec 4, syndromeOf hTr r = .ok z ∧
      ∀ j < 4, z.getLsbD (3 - j) = xorSum r.cols fun k => r.bit 0 k && hTr.bit k j := by
  unfold syndromeOf
  rw [mul_eq_ok hrc, except_bind_ok]
  obtain ⟨v, hv, hlt, hbits⟩ := pack_getRow_zero
    (m := Matrix.ofFn r.rows hTr.cols fun i j => xorSum r.cols fun k => r.bit i k && hTr.bit k j)
    hr (by simp [hc])
  simp only [Matrix.cols_ofFn, hc] at hlt hbits
  obtain ⟨row, hrow, hpack⟩ := except_bind_eq_ok.1 hv
  refine ⟨v.setWidth 4, ?_, fun j hj => ?_⟩
  · rw [hrow, except_bind_ok, hpack, except_bind_ok, syndromeIndex, if_pos (show v.toNat < 16 from hlt)]
  · have := hbits j hj
    rw [Matrix.bit_ofFn_of_lt _ (by omega) hj] at this
    rw [BitVec.getLsbD_setWidth, ← this]
    simp [show 3 - j < 4 by omega]

/-- Encode, with any 4x8 generator (R120): bit 7-j of the codeword is element j of `s·G`. -/
theorem encodeWord_spec {g : Matrix} (hr : g.rows = 4) (hc : g.cols = 8) (src : Byte) :
    ∃ cw : Byte, encodeWord g src = .ok cw ∧
      ∀ j < 8, cw.getLsbD (7 - j) = xorSum 4 fun i => src.getLsbD (3 - i) && g.bit i j := by
  have hs : (unpack src 4 >>= fun b => construct [b]) =
      .ok (Matrix.ofFn 1 4 fun _ i => src.getLsbD (3 - i)) := rfl
  obtain ⟨b, hb, hcon⟩ := except_bind_eq_ok.1 hs
  unfold encodeWord
  rw [hb, except_bind_ok, hcon, except_bind_ok, mul_eq_ok (by simp [hr]), except_bind_ok]
  obtain ⟨v, hv, -, hbits⟩ := pack_getRow_zero
    (m := Matrix.ofFn 1 g.cols fun i j => xorSum 4 fun k =>
      (Matrix.ofFn 1 4 fun _ i => src.getLsbD (3 - i)).bit i k && g.bit k j) (by simp) (by simp [hc])
  refine ⟨v, hv, fun j hj => ?_⟩
  simp only [Matrix.cols_ofFn, hc] at hbits
  rw [← show 8 - 1 - j = 7 - j by omega, hbits j hj, Matrix.bit_ofFn_of_lt _ (by omega) hj]
  exact xorSum_congr fun k hk => by rw [Matrix.bit_ofFn_of_lt _ (by omega) hk]

/-- Step 5 of Decode (R135): the corrected byte is the sum of the word and the pattern. -/
theorem correctedNibble_spec (cw e : Byte) :
    correctedNibble (rowOf cw) (rowOf e) = .ok ((cw ^^^ e).extractLsb' 4 4) := by
  have hadd : add (rowOf cw) (rowOf e) = .ok (rowOf (cw ^^^ e)) := by
    rw [add_eq_ok (a := rowOf cw) (b := rowOf e) rfl rfl]
    refine congrArg _ (Matrix.ofFn_congr fun r hr c hc => ?_)
    obtain rfl : r = 0 := by simpa using hr
    rw [rowOf_bit _ (by simpa using hc), rowOf_bit _ (by simpa using hc), BitVec.getLsbD_xor]
  obtain ⟨v, hv, -, hbits⟩ := pack_getRow_zero (m := rowOf (cw ^^^ e)) (by simp) (by simp)
  obtain ⟨row, hrow, hpack⟩ := except_bind_eq_ok.1 hv
  have hve : v = cw ^^^ e := eq_of_bits fun j hj => by
    have := hbits j hj
    rw [rowOf_bit _ hj] at this
    exact this
  unfold correctedNibble
  rw [hadd, except_bind_ok, hrow, except_bind_ok, hpack, except_bind_ok, hve]
  rfl

end Sys2Proof.Machine
end

