-- ==== Sys2Proof/Laws/Decode.lean ====
section
/-! SUPPORT. The port bundles: what is read from them, and that they read back what is laid on them. -/

namespace Sys2Proof

theorem wireAt_ofFn (f : Fin 8 → Bool) {i : Nat} (h : i < 8) : wireAt (Vector.ofFn f) i = f ⟨i, h⟩ := by
  simp [wireAt, h]

@[simp] theorem wireAt_fin (w : Vector Bool 8) (i : Fin 8) : wireAt w i = w[i] := by simp [wireAt]

theorem toNat_ofNat8 {n : Nat} (h : n ≤ 8) : (BitVec.ofNat 8 n).toNat = n := by
  rw [BitVec.toNat_ofNat]; omega

theorem toNat_ofNat4 {n : Nat} (h : n ≤ 8) : (BitVec.ofNat 4 n).toNat = n := by
  rw [BitVec.toNat_ofNat]; omega

/-! ## What is read is well-formed -/

theorem MatWires.toMatrix_wf {w : MatWires} {m : Matrix} (h : w.toMatrix = .ok m) : m.wf = true := by
  unfold MatWires.toMatrix at h
  split_ifs at h with hc
  cases h
  exact Matrix.wf_ofFn _ ⟨hc.1, hc.2.1⟩ ⟨hc.2.2.1, hc.2.2.2⟩

@[simp] theorem SeqWires.length_elements (w : SeqWires) : w.elements.length = w.len.toNat := by
  simp [SeqWires.elements]

theorem SeqWires.getD_elements (w : SeqWires) {i : Nat} (h : i < w.len.toNat) :
    w.elements.getD i false = wireAt w.e i := by
  rw [SeqWires.elements, List.getD_map_range, if_pos h]

/-- All that a row bundle can give: its elements, if it is present and not too long (R50, R56). -/
theorem SeqWires.toRow_eq_ok_iff {w : SeqWires} {b : List Bool} :
    w.toRow = .ok b ↔ (w.present = true ∧ w.len.toNat ≤ 8) ∧ b = w.elements := by
  unfold SeqWires.toRow
  cases w.present
  · simp
  · rw [if_neg (by simp)]
    by_cases h : w.len.toNat ≤ 8
    · rw [if_neg (Nat.not_lt.2 h)]
      simp [h, eq_comm (a := b)]
    · rw [if_pos (Nat.not_le.1 h)]
      simp [h]

/-- All that a list of row bundles can give. -/
theorem rowsOf_eq_ok_iff {ws : List SeqWires} {rows : List (List Bool)} : rowsOf ws = .ok rows ↔
    (∀ w ∈ ws, w.present = true ∧ w.len.toNat ≤ 8) ∧ rows = ws.map SeqWires.elements := by
  induction ws generalizing rows with
  | nil => exact ⟨fun h => by cases h; simp, fun h => by rw [h.2]; rfl⟩
  | cons w ws ih =>
    rw [rowsOf, List.forall_mem_cons]
    constructor
    · intro h
      obtain ⟨row, hrow, h⟩ := except_bind_eq_ok.1 h
      obtain ⟨rest, hrest, h⟩ := except_bind_eq_ok.1 h
      obtain ⟨hw, rfl⟩ := SeqWires.toRow_eq_ok_iff.1 hrow
      obtain ⟨hws, rfl⟩ := ih.1 hrest
      cases h
      exact ⟨⟨hw, hws⟩, rfl⟩
    · rintro ⟨⟨hw, hws⟩, rfl⟩
      rw [SeqWires.toRow_eq_ok_iff.2 ⟨hw, rfl⟩, except_bind_ok, ih.2 ⟨hws, rfl⟩]
      rfl

/-- All that a `ROWS` bundle can give: its first `count` rows, if the count and all eight row bundles are
legal (R50, R56); otherwise it is refused. -/
theorem RowsWires.toRows_eq_ok_iff {w : RowsWires} {rows : List (List Bool)} : w.toRows = .ok rows ↔
    w.count.toNat ≤ 8 ∧ (∀ b ∈ w.row.toList, b.present = true ∧ b.len.toNat ≤ 8) ∧
      rows = (w.row.toList.take w.count.toNat).map SeqWires.elements := by
  unfold RowsWires.toRows
  by_cases h : w.count.toNat ≤ 8
  · rw [if_neg (Nat.not_lt.2 h), except_bind_eq_ok]
    simp only [rowsOf_eq_ok_iff, h, true_and, List.map_take]
    constructor
    · rintro ⟨_, ⟨hall, rfl⟩, h⟩
      cases h
      exact ⟨hall, rfl⟩
    · rintro ⟨hall, rfl⟩
      exact ⟨_, ⟨hall, rfl⟩, rfl⟩
  · rw [if_pos (Nat.not_le.1 h)]
    simp [h]

theorem RowsWires.toRows_within {w : RowsWires} {rows : List (List Bool)} (h : w.toRows = .ok rows) :
    rowsWithinMaxDim rows = true := by
  obtain ⟨-, hall, rfl⟩ := RowsWires.toRows_eq_ok_iff.1 h
  simp only [rowsWithinMaxDim, Bool.and_eq_true, decide_eq_true_eq, List.all_eq_true]
  refine ⟨by simp, fun r hr => ?_⟩
  obtain ⟨b, hb, rfl⟩ := List.mem_map.1 hr
  rw [SeqWires.length_elements]
  exact (hall b (List.mem_of_mem_take hb)).2

theorem SeqWires.toPackOperand_wf (w : SeqWires) : w.toPackOperand.wf = true := by
  unfold SeqWires.toPackOperand
  split_ifs with h1 h2
  · rfl
  · simpa [PackOperand.wf] using h2
  · simpa [PackOperand.wf] using h2

/-! ## What is laid on the wires is read back -/

theorem MatWires.toMatrix_ofMatrix {m : Matrix} (h : m.wf = true) :
    (MatWires.ofMatrix m).toMatrix = .ok m := by
  obtain ⟨hr, hc, -, -⟩ := (Matrix.wf_iff m).1 h
  have h1 : (MatWires.ofMatrix m).rows.toNat = m.rows := toNat_ofNat4 hr.2
  have h2 : (MatWires.ofMatrix m).cols.toNat = m.cols := toNat_ofNat4 hc.2
  unfold MatWires.toMatrix
  rw [h1, h2, if_pos ⟨hr.1, hr.2, hc.1, hc.2⟩]
  conv => rhs; rw [Matrix.eq_ofFn_of_wf h]
  refine congrArg _ (Matrix.ofFn_congr fun r hr' c hc' => ?_)
  have hr8 : r < 8 := by omega
  have hc8 : c < 8 := by omega
  have : (MatWires.ofMatrix m).e.toList.getD r (Vector.replicate 8 false) =
      Vector.ofFn fun c => decide (r < m.rows) && decide (c.val < m.cols) && m.bit r c := by
    simp [MatWires.ofMatrix, hr8]
  rw [this, wireAt_ofFn _ hc8]; simp [hr', hc']

theorem SeqWires.elements_ofBits {b : List Bool} (h : b.length ≤ 8) : (SeqWires.ofBits b).elements = b := by
  have hl : (SeqWires.ofBits b).len.toNat = b.length := toNat_ofNat8 h
  apply List.ext_getElem (by simp [hl])
  intro i h1 h2
  have : i < 8 := by omega
  simp [SeqWires.elements, SeqWires.ofBits, wireAt_ofFn _ this, h2]

theorem SeqWires.toRow_ofBits {b : List Bool} (h : b.length ≤ 8) : (SeqWires.ofBits b).toRow = .ok b := by
  have hl : (SeqWires.ofBits b).len.toNat = b.length := toNat_ofNat8 h
  have hp : (SeqWires.ofBits b).present = true := rfl
  unfold SeqWires.toRow
  rw [hl, hp, SeqWires.elements_ofBits h, if_neg (by simp), if_neg (show ¬ 8 < b.length by omega)]

theorem rowsOf_map_ofBits {rows : List (List Bool)} (h : ∀ r ∈ rows, r.length ≤ 8) :
    rowsOf (rows.map SeqWires.ofBits) = .ok rows := by
  induction rows with
  | nil => rfl
  | cons r rs ih =>
    simp [rowsOf, SeqWires.toRow_ofBits (h r (by simp)), ih fun x hx => h x (by simp [hx])]

theorem RowsWires.toRows_ofRows {rows : List (List Bool)} (h : rowsWithinMaxDim rows = true) :
    (RowsWires.ofRows rows).toRows = .ok rows := by
  simp only [rowsWithinMaxDim, Bool.and_eq_true, decide_eq_true_eq, List.all_eq_true] at h
  have h8 : rows.length ≤ 8 := h.1
  have hc : (RowsWires.ofRows rows).count.toNat = rows.length := toNat_ofNat8 h8
  have hrows : (RowsWires.ofRows rows).row.toList =
      ((List.range 8).map fun i => rows.getD i []).map SeqWires.ofBits :=
    List.ext_getElem (by simp) fun i h1 h2 => by simp [RowsWires.ofRows]
  have hall : ∀ r ∈ (List.range 8).map (fun i => rows.getD i []), r.length ≤ 8 := by
    intro r hr
    obtain ⟨i, -, rfl⟩ := List.mem_map.1 hr
    by_cases hi : i < rows.length
    · simpa [hi] using h.2 _ (List.getElem_mem hi)
    · simp [hi]
  have htake : ((List.range 8).map fun i => rows.getD i []).take rows.length = rows :=
    List.ext_getElem (by simpa using h8) fun i h1 h2 => by simp [h2]
  unfold RowsWires.toRows
  rw [hc, if_neg (show ¬ 8 < rows.length by omega), hrows, rowsOf_map_ofBits hall, except_bind_ok, htake,
    except_pure]

theorem PackOperand.toPackOperand_wires {seq : PackOperand} (h : seq.wf = true) :
    seq.wires.toPackOperand = seq := by
  cases seq with
  | absent => rfl
  | bits b =>
    have h : b.length ≤ 8 := by simpa [PackOperand.wf] using h
    have hl : (SeqWires.ofBits b).len.toNat = b.length := toNat_ofNat8 h
    have hp : (SeqWires.ofBits b).present = true := rfl
    simp [PackOperand.wires, SeqWires.toPackOperand, hl, hp, SeqWires.elements_ofBits h, h]
  | tooLong len =>
    have h : 8 < len.toNat := by simpa [PackOperand.wf] using h
    simp [PackOperand.wires, SeqWires.toPackOperand, h]

/-! ## Bytes -/

/-- Eight wires survive the byte (log entry 5). -/
@[simp] theorem byteToWires_wiresToByte (w : Vector Bool 8) : byteToWires (wiresToByte w) = w := by
  obtain ⟨⟨l⟩, hl⟩ := w
  obtain _ | ⟨a, _ | ⟨b, _ | ⟨c, _ | ⟨d, _ | ⟨e, _ | ⟨f, _ | ⟨g, _ | ⟨h, _ | ⟨i, l⟩⟩⟩⟩⟩⟩⟩⟩⟩ := l
  all_goals first | (revert a b c d e f g h; decide) | (simp at hl)

theorem readSeq_toBytes (w : SeqWires) (rest : List Byte) : readSeq (w.toBytes ++ rest) = .ok (w, rest) := by
  obtain ⟨p, len, e⟩ := w
  cases p <;> simp [readSeq, readFlag, readByte, SeqWires.toBytes]

/-- Values read one after another, where each reads back. -/
theorem readMany_flatMap {α : Type} {read : List Byte → Except DecodeError (α × List Byte)}
    {bytes : α → List Byte} (h : ∀ x rest, read (bytes x ++ rest) = .ok (x, rest)) (xs : List α)
    (rest : List Byte) : readMany read xs.length (xs.flatMap bytes ++ rest) = .ok (xs, rest) := by
  induction xs with
  | nil => rfl
  | cons x xs ih => simp [readMany, h, ih]

theorem Vector.ofFn_getD_toList {α : Type} (v : Vector α 8) (d : α) :
    (Vector.ofFn fun i : Fin 8 => v.toList.getD i d) = v := by
  ext i hi
  simp

theorem readRows_toBytes (w : RowsWires) (rest : List Byte) :
    readRows (w.toBytes ++ rest) = .ok (w, rest) := by
  have h := readMany_flatMap readSeq_toBytes w.row.toList rest
  rw [Vector.length_toList] at h
  simp only [readRows, RowsWires.toBytes, List.cons_append, readByte, except_bind_ok, h, except_pure]
  rw [Vector.ofFn_getD_toList]

theorem readMat_toBytes (w : MatWires) (rest : List Byte) : readMat (w.toBytes ++ rest) = .ok (w, rest) := by
  have h := readMany_flatMap (read := readByte) (bytes := fun b => [b]) (fun _ _ => rfl)
    (w.e.toList.map wiresToByte) rest
  have hf : ∀ l : List Byte, l.flatMap (fun b => [b]) = l := fun l => by induction l <;> simp_all
  rw [hf, List.length_map, Vector.length_toList] at h
  have hs : ∀ r c : BitVec 4, (r ++ c).extractLsb' 4 4 = r ∧ (r ++ c).extractLsb' 0 4 = c := by decide
  have hw : (Vector.ofFn fun r : Fin 8 => byteToWires ((w.e.toList.map wiresToByte).getD r 0)) = w.e := by
    ext i hi : 1
    simp
  simp only [readMat, MatWires.toBytes, List.cons_append, readByte, except_bind_ok, h, except_pure,
    (hs w.rows w.cols).1, (hs w.rows w.cols).2, hw]

theorem readIndex_setWidth (z : BitVec 4) (rest : List Byte) :
    readIndex (z.setWidth 8 :: rest) = .ok (z, rest) := by
  have h : ∀ z : BitVec 4, (z.setWidth 8).toNat < 16 ∧ (z.setWidth 8).setWidth 4 = z := by decide
  simp only [readIndex, readByte, except_bind_ok, (h z).1, if_true, (h z).2, except_pure]

end Sys2Proof
end

