-- ==== Sys2Proof/Laws/Exec.lean ====
section
/-! SUPPORT. Each operation as one computation and its end, and all that a step can do. -/

namespace Sys2Proof.Machine

/-- SYN.LOOKUP never fails. -/
theorem exec_synLookup (z : BitVec 4) (s : State) :
    exec (.synLookup z) s = .next (s.finish ⟨.success (.pattern (s.memReadSyn z)), .none⟩) := rfl

/-- An operation computes and ends: no state change but its outcome. -/
theorem exec_eq_conclude (i : Instr) (s : State) : ∃ x, exec i s = conclude x s := by
  cases i
  case synLookup z => exact ⟨.ok (.pattern (s.memReadSyn z), .none), rfl⟩
  all_goals exact ⟨_, rfl⟩

/-- All that an operation can do to the state: give it an outcome (R10). -/
theorem exec_next {i : Instr} {s t : State} (h : exec i s = .next t) : ∃ o, t = s.finish o := by
  obtain ⟨x, hx⟩ := exec_eq_conclude i s
  rw [hx] at h
  obtain ⟨_, _, -, h⟩ | ⟨_, _, -, h⟩ := conclude_next h <;> exact ⟨_, h⟩

/-- Two states with the same constants: the same computation. -/
theorem exec_congr (i : Instr) {s s' : State} (hg : s.g = s'.g) (hh : s.hTr = s'.hTr)
    (hs : s.syn = s'.syn) : ∃ x, exec i s = conclude x s ∧ exec i s' = conclude x s' := by
  have hm : s.memReadSyn = s'.memReadSyn := by funext z; simp only [State.memReadSyn, hs]
  cases i
  case synLookup z => exact ⟨.ok (.pattern (s.memReadSyn z), .none), rfl, by rw [hm]; rfl⟩
  case hamEncode src =>
    refine ⟨_, rfl, ?_⟩
    rw [hg]; rfl
  case hamDecode cw =>
    refine ⟨_, rfl, ?_⟩
    have : decodeWord s cw = decodeWord s' cw := by simp only [decodeWord, hh, hm]
    rw [this]; rfl
  all_goals exact ⟨_, rfl, rfl⟩

/-- A step that answers a next state has served one decodable transaction. -/
theorem step_next {s t : State} (h : step s = .next t) : ∃ q rest i, s.requests = q :: rest ∧
    decode q.cmd q.ports = .ok i ∧ exec i s.served = .next t := by
  unfold step at h
  split at h
  · cases h
  · split at h
    · cases h
    · exact ⟨_, _, _, by assumption, by assumption, h⟩

/-- A run of one more step. -/
theorem run_succ (n : Nat) (s : State) : Host.Core.run Sys2Proof.core (n + 1) s =
    (match step s with
      | .next t => Host.Core.run Sys2Proof.core n t
      | .fault r => .fault r
      | .refused r => .refused r) := by
  have hs : Sys2Proof.core.step = step := rfl
  cases h : step s <;> simp only [Host.Core.run, hs, h]

theorem run_zero (s : State) : Host.Core.run Sys2Proof.core 0 s = .next s := rfl

end Sys2Proof.Machine
end

