-- ==== Sys2Proof/Laws/Linear.lean ====
section
/-! SUPPORT. Encode and Decode over any constants that meet R15: what every later proof about the codec
starts from. -/

namespace Sys2Proof.Machine

section
variable {s : State} (ha : Admissible s)
include ha

/-- The syndrome of a word, bit by bit (R132). -/
theorem syndrome_rowOf_spec (w : Byte) : ∃ z : BitVec 4, syndromeOf s.hTr (rowOf w) = .ok z ∧
    ∀ j < 4, z.getLsbD (3 - j) = xorSum 8 fun k => w.getLsbD (7 - k) && s.hTr.bit k j := by
  obtain ⟨z, h1, h2⟩ := syndromeOf_spec (hTr := s.hTr) (r := rowOf w) (by simp)
    (by simp [ha.hTrShape.2.1]) ha.hTrShape.2.2
  refine ⟨z, h1, fun j hj => ?_⟩
  rw [h2 j hj]
  exact xorSum_congr fun k hk => by rw [rowOf_bit _ hk]

/-- The syndrome is linear. -/
theorem syndrome_rowOf_xor {w w' : Byte} {z z' : BitVec 4} (h : syndromeOf s.hTr (rowOf w) = .ok z)
    (h' : syndromeOf s.hTr (rowOf w') = .ok z') : syndromeOf s.hTr (rowOf (w ^^^ w')) = .ok (z ^^^ z') := by
  obtain ⟨y, hy, by1⟩ := syndrome_rowOf_spec ha (w ^^^ w')
  obtain ⟨y1, hy1, b1⟩ := syndrome_rowOf_spec ha w
  obtain ⟨y2, hy2, b2⟩ := syndrome_rowOf_spec ha w'
  rw [h] at hy1; rw [h'] at hy2; cases hy1; cases hy2
  rw [hy]
  congr 1
  refine eq_of_bits fun j hj => ?_
  have : 4 - 1 - j = 3 - j := by omega
  rw [this, BitVec.getLsbD_xor, by1 j hj, b1 j hj, b2 j hj, ← xorSum_xor]
  refine xorSum_congr fun k hk => ?_
  rw [BitVec.getLsbD_xor]; cases s.hTr.bit k j <;> simp

/-- The codeword, bit by bit (R120). -/
theorem encodeWord_bits (src : Byte) : ∃ cw : Byte, encodeWord s.g src = .ok cw ∧
      ∀ j < 8, cw.getLsbD (7 - j) = xorSum 4 fun i => src.getLsbD (3 - i) && s.g.bit i j :=
  encodeWord_spec ha.gShape.2.1 ha.gShape.2.2 src

/-- A codeword has syndrome 0. -/
theorem syndrome_of_codeword {src cw : Byte} (h : encodeWord s.g src = .ok cw) :
    syndromeOf s.hTr (rowOf cw) = .ok 0 := by
  obtain ⟨c, hc, cb⟩ := encodeWord_bits ha src
  rw [h] at hc; cases hc
  obtain ⟨z, hz, zb⟩ := syndrome_rowOf_spec ha cw
  rw [hz]; congr 1
  refine eq_of_bits fun j hj => ?_
  rw [show 4 - 1 - j = 3 - j by omega, zb j hj]
  have hp := (mul_eq_ok_iff.1 ha.productZero).2
  have hbit : ∀ i < 4, ∀ j < 4, (xorSum 8 fun k => s.g.bit i k && s.hTr.bit k j) = false := by
    intro i hi j hj
    have := congrArg (fun m : Sys2Proof.Matrix => m.bit i j) hp
    rw [zeroMatrix, Matrix.bit_ofFn_of_lt _ hi hj, Matrix.bit_ofFn_of_lt _ (by rw [ha.gShape.2.1]; exact hi)
      (by rw [ha.hTrShape.2.2]; exact hj), ha.gShape.2.2] at this
    exact this.symm
  rw [xorSum_congr (g := fun k => xorSum 4 fun i => src.getLsbD (3 - i) && (s.g.bit i k && s.hTr.bit k j))
    (fun k hk => by
    rw [cb k hk, ← xorSum_and_right]; exact xorSum_congr fun l _ => by rw [Bool.and_assoc]), xorSum_comm,
    xorSum_congr (g := fun _ => false) (fun i hi => by rw [xorSum_and_left, hbit i hi j hj, Bool.and_false])]
  simp

/-- The top four bits of a codeword are its source word. -/
theorem encodeWord_top {src cw : Byte} (h : encodeWord s.g src = .ok cw) :
    cw.extractLsb' 4 4 = src.extractLsb' 0 4 := by
  obtain ⟨c, hc, cb⟩ := encodeWord_bits ha src
  rw [h] at hc; cases hc
  refine eq_of_bits fun j hj => ?_
  rw [BitVec.getLsbD_extractLsb', BitVec.getLsbD_extractLsb']
  have := cb j (by omega)
  rw [xorSum_congr (g := fun i => decide (i = j) && src.getLsbD (3 - i))
    (fun i hi => by rw [ha.systematic i hi j hj, Bool.and_comm]), xorSum_single hj] at this
  rw [show 4 + (4 - 1 - j) = 7 - j by omega, this]; simp

/-- Every table entry is the row vector of a word. -/
theorem exists_entry_word (z : BitVec 4) : ∃ e : Byte, s.memReadSyn z = rowOf e := by
  obtain ⟨h1, h2, h3⟩ := ha.synShape z
  obtain ⟨e, he, -⟩ := exists_eq_rowOf h1 h2 h3
  exact ⟨e, he⟩

/-- All that Decode can do: the entry of the syndrome, and one of three ends by its weight. -/
theorem hamDecode_spec (cw : Byte) : ∃ (z : BitVec 4) (e : Byte),
    syndromeOf s.hTr (rowOf cw) = .ok z ∧ s.memReadSyn z = rowOf e ∧
    IsCodeword s (cw ^^^ e) ∧
    (weight (s.memReadSyn z) = 0 → exec (.hamDecode cw) s =
      .next (s.finish ⟨.success (.nibble ((cw ^^^ e).extractLsb' 4 4)), .none⟩)) ∧
    (weight (s.memReadSyn z) = 1 → exec (.hamDecode cw) s =
      .next (s.finish ⟨.success (.nibble ((cw ^^^ e).extractLsb' 4 4)), .oneBit⟩)) ∧
    (2 ≤ weight (s.memReadSyn z) → exec (.hamDecode cw) s =
      .next (s.finish ⟨.failure .uncorrectableError, .twoBit⟩)) := by
  obtain ⟨z, hz, -⟩ := syndrome_rowOf_spec ha cw
  obtain ⟨e, he⟩ := exists_entry_word ha z
  have hrep := (ha.representative z).1
  rw [he] at hrep
  have hx := syndrome_rowOf_xor ha hz hrep
  rw [BitVec.xor_self] at hx
  refine ⟨z, e, hz, he, ha.zeroOnly _ hx, ?_, ?_, ?_⟩ <;> intro hw
  · simp only [exec, execHamDecode, decodeWord, receivedRow_eq, except_bind_ok, hz, classify_zero hw]
    rw [he, correctedNibble_spec]; rfl
  · simp only [exec, execHamDecode, decodeWord, receivedRow_eq, except_bind_ok, hz, classify_one hw]
    rw [he, correctedNibble_spec]; rfl
  · simp only [exec, execHamDecode, decodeWord, receivedRow_eq, except_bind_ok, hz, classify_two hw]
    rfl

end

/-- The row vectors of two words add up to the row vector of their XOR. -/
theorem add_rowOf (a b : Byte) : add (rowOf a) (rowOf b) = .ok (rowOf (a ^^^ b)) := by
  rw [add_eq_ok (a := rowOf a) (b := rowOf b) rfl rfl]
  refine congrArg _ (Matrix.ofFn_congr fun r hr c hc => ?_)
  obtain rfl : r = 0 := by simpa using hr
  rw [rowOf_bit _ (by simpa using hc), rowOf_bit _ (by simpa using hc), BitVec.getLsbD_xor]

/-- A word is known from its row vector. -/
theorem rowOf_inj {a b : Byte} (h : rowOf a = rowOf b) : a = b := eq_of_bits fun j hj => by
  have := congrArg (fun m : Matrix => m.bit 0 j) h
  simpa [rowOf_bit _ hj] using this

theorem syndromeOfWord_eq (s : State) (w : Byte) : syndromeOfWord s w = syndromeOf s.hTr (rowOf w) := by
  simp [syndromeOfWord, receivedRow_eq]

end Sys2Proof.Machine
end

