-- ==== Sys2Proof/Laws/PerInstr.lean ====
section
/-! SUPPORT. Statements made of every instruction, one lemma per constructor. -/

namespace Sys2Proof.Laws

/-- The operation code of an instruction is one that the table of R52 lists: no instruction is encoded
with a reserved code (R55). -/
def CmdListed.Statement (i : Instr) : Prop := i.cmd ∈ listedCommands

theorem CmdListed.matConstruct (rows : List (List Bool)) : CmdListed.Statement (.matConstruct rows) :=
  (by decide : (0x00 : Byte) ∈ listedCommands)

theorem CmdListed.matRows (a : Matrix) : CmdListed.Statement (.matRows a) :=
  (by decide : (0x01 : Byte) ∈ listedCommands)

theorem CmdListed.matCols (a : Matrix) : CmdListed.Statement (.matCols a) :=
  (by decide : (0x02 : Byte) ∈ listedCommands)

theorem CmdListed.matGet (a : Matrix) (r c : Byte) : CmdListed.Statement (.matGet a r c) :=
  (by decide : (0x03 : Byte) ∈ listedCommands)

theorem CmdListed.matSet (a : Matrix) (r c v : Byte) : CmdListed.Statement (.matSet a r c v) :=
  (by decide : (0x04 : Byte) ∈ listedCommands)

theorem CmdListed.matGetRow (a : Matrix) (r : Byte) : CmdListed.Statement (.matGetRow a r) :=
  (by decide : (0x05 : Byte) ∈ listedCommands)

theorem CmdListed.matMul (a b : Matrix) : CmdListed.Statement (.matMul a b) :=
  (by decide : (0x06 : Byte) ∈ listedCommands)

theorem CmdListed.matAdd (a b : Matrix) : CmdListed.Statement (.matAdd a b) :=
  (by decide : (0x07 : Byte) ∈ listedCommands)

theorem CmdListed.matEq (a b : Matrix) : CmdListed.Statement (.matEq a b) :=
  (by decide : (0x08 : Byte) ∈ listedCommands)

theorem CmdListed.bpUnpack (value n : Byte) : CmdListed.Statement (.bpUnpack value n) :=
  (by decide : (0x10 : Byte) ∈ listedCommands)

theorem CmdListed.bpPack (seq : PackOperand) : CmdListed.Statement (.bpPack seq) :=
  (by decide : (0x11 : Byte) ∈ listedCommands)

theorem CmdListed.synLookup (index : BitVec 4) : CmdListed.Statement (.synLookup index) :=
  (by decide : (0x20 : Byte) ∈ listedCommands)

theorem CmdListed.hamEncode (src : Byte) : CmdListed.Statement (.hamEncode src) :=
  (by decide : (0x30 : Byte) ∈ listedCommands)

theorem CmdListed.hamDecode (cw : Byte) : CmdListed.Statement (.hamDecode cw) :=
  (by decide : (0x40 : Byte) ∈ listedCommands)

end Sys2Proof.Laws
end

