-- ==== Sys2Proof/Tests/Slice0.lean ====
section
/-! SUPPORT. Tests with expected results from the spec (95_test_vectors.md, 30_encoding.md), and for each
statement with hypotheses a concrete case that meets them. -/

namespace Sys2Proof.Tests

open Sys2Proof.Machine

/-! ## Spelling of the vectors -/

/-- A matrix as the spec prints it. -/
def mat (rows : List (List Nat)) : Matrix := ⟨rows.length, (rows.headD []).length, rows.map Config.bits⟩

/-- Eight wires of which the first are given; the others are 1, to be ignored. -/
def wires (l : List Nat) : Vector Bool 8 := Vector.ofFn fun i => l.getD i 1 == 1

/-- Eight rows of wires of which the first are given. -/
def matWires (rows cols : BitVec 4) (l : List (List Nat)) : MatWires :=
  ⟨rows, cols, Vector.ofFn fun i => wires (l.getD i [])⟩

/-- A `ROWS` bundle of which the first row bundles are given; the others are full, to be ignored. -/
def rowsWires (count : Byte) (l : List SeqWires) : RowsWires :=
  ⟨count, Vector.ofFn fun i => l.getD i ⟨true, 8, wires []⟩⟩

def ok (r : Result) : Option Response := some ⟨.success r, .none⟩

def fails (k : FailureKind) : Option Response := some ⟨.failure k, .none⟩

/-- A value on every input port, with a 1 on every wire outside the shapes. -/
def ports : InPorts where
  rowsIn := rowsWires 2 [⟨true, 2, wires [1, 0]⟩, ⟨true, 2, wires [0, 1]⟩]
  a      := matWires 2 3 [[1, 0, 1], [0, 1, 1]]
  b      := matWires 3 2 [[1, 1], [0, 1], [1, 0]]
  r      := 1
  c      := 2
  v      := 1
  value  := 0xFC
  n      := 4
  seqIn  := ⟨true, 3, wires [1, 1, 0]⟩
  index  := 7
  srcIn  := 0xFC
  cwIn   := 0xCD

def matA : Matrix := mat [[1, 0, 1], [0, 1, 1]]
def matB : Matrix := mat [[1, 1], [0, 1], [1, 0]]

/-- The largest matrix value. -/
def ones : Matrix := Matrix.ofFn 8 8 fun _ _ => true

/-- Reset with one transaction presented. -/
def served1 (i : Instr) : State := State.reset.present (encode i)

/-! ## WellFormed refuses ill-formed terms -/

theorem test_wf_no_rows : (Instr.matRows ⟨0, 1, []⟩).wf = false := by decide
theorem test_wf_no_cols : (Instr.matCols ⟨1, 0, [[]]⟩).wf = false := by decide
theorem test_wf_nine_rows : (Instr.matGet (Matrix.ofFn 9 1 fun _ _ => false) 0 0).wf = false := by decide
theorem test_wf_nine_cols : (Instr.matSet (Matrix.ofFn 1 9 fun _ _ => false) 0 0 0).wf = false := by decide
theorem test_wf_missing_row : (Instr.matGetRow ⟨2, 1, [[true]]⟩ 0).wf = false := by decide
theorem test_wf_ragged : (Instr.matMul ones ⟨2, 2, [[true, true], [true]]⟩).wf = false := by decide
theorem test_wf_left : (Instr.matAdd ⟨0, 0, []⟩ ones).wf = false := by decide
theorem test_wf_right : (Instr.matEq ones ⟨0, 0, []⟩).wf = false := by decide
theorem test_wf_too_many_raw_rows : (Instr.matConstruct (List.replicate 9 [true])).wf = false := by decide
theorem test_wf_raw_row_too_long : (Instr.matConstruct [List.replicate 9 true]).wf = false := by decide
theorem test_wf_nine_bits : (Instr.bpPack (.bits (List.replicate 9 true))).wf = false := by decide
theorem test_wf_not_too_long : (Instr.bpPack (.tooLong 8)).wf = false := by decide

/-! ## Every operation code, bit by bit as the table of R52 spells it, with the bundles of R49, R50 -/

theorem test_decode_matConstruct :
    decode 0b00000000 ports = .ok (.matConstruct [[true, false], [false, true]]) := by decide
theorem test_decode_matRows : decode 0b00000001 ports = .ok (.matRows matA) := by decide
theorem test_decode_matCols : decode 0b00000010 ports = .ok (.matCols matA) := by decide
theorem test_decode_matGet : decode 0b00000011 ports = .ok (.matGet matA 1 2) := by decide
theorem test_decode_matSet : decode 0b00000100 ports = .ok (.matSet matA 1 2 1) := by decide
theorem test_decode_matGetRow : decode 0b00000101 ports = .ok (.matGetRow matA 1) := by decide
theorem test_decode_matMul : decode 0b00000110 ports = .ok (.matMul matA matB) := by decide
theorem test_decode_matAdd : decode 0b00000111 ports = .ok (.matAdd matA matB) := by decide
theorem test_decode_matEq : decode 0b00001000 ports = .ok (.matEq matA matB) := by decide
theorem test_decode_bpUnpack : decode 0b00010000 ports = .ok (.bpUnpack 0xFC 4) := by decide
theorem test_decode_bpPack : decode 0b00010001 ports = .ok (.bpPack (.bits [true, true, false])) := by decide
theorem test_decode_synLookup : decode 0b00100000 ports = .ok (.synLookup 7) := by decide
theorem test_decode_hamEncode : decode 0b00110000 ports = .ok (.hamEncode 0xFC) := by decide
theorem test_decode_hamDecode : decode 0b01000000 ports = .ok (.hamDecode 0xCD) := by decide
theorem test_decode_reserved : decode 0b00001001 ports = .error (.reservedCommand 0x09) := by decide

/-- The table words, one byte each, through the host's two functions. -/
theorem test_table_words :
    (listedCommands.map fun w => (decodeTableWord 8 w.toNat).map Instr.cmd) = listedCommands.map some := by
  decide
theorem test_fetch_word_runs :
    (match step (State.reset.withFetchWord 8 0x30) with | .next t => t.outcome | _ => none) =
      ok (.codeword 0x00) := by decide

/-! ## The vectors of 95_test_vectors.md, two per operation -/

theorem test_M1 : outcomeOf (.matConstruct [Config.bits [1, 1, 0, 0]]) State.reset =
    ok (.matrix (mat [[1, 1, 0, 0]])) := by decide
theorem test_M3_M4_M5 : [[], [Config.bits [1, 0], []], [Config.bits [1, 0], Config.bits [1]]].all
    (fun rows => outcomeOf (.matConstruct rows) State.reset = fails .invalidShape) = true := by decide
theorem test_M6_rows : outcomeOf (.matRows matA) State.reset = ok (.scalar 2) := by decide
theorem test_M6_cols : outcomeOf (.matCols matA) State.reset = ok (.scalar 3) := by decide
theorem test_M7 : outcomeOf (.matGet matA 1 2) State.reset = ok (.scalar 1) := by decide
theorem test_M8 : outcomeOf (.matGet matA 2 0) State.reset = fails .indexOutOfRange ∧
    outcomeOf (.matGet matA 0 3) State.reset = fails .indexOutOfRange ∧
    outcomeOf (.matGet matA 255 255) State.reset = fails .indexOutOfRange := by decide
theorem test_M9 : outcomeOf (.matSet matA 0 1 1) State.reset =
    ok (.matrix (mat [[1, 1, 1], [0, 1, 1]])) := by decide
theorem test_M10 : outcomeOf (.matSet matA 0 1 2) State.reset = fails .invalidValue ∧
    outcomeOf (.matSet matA 0 3 1) State.reset = fails .indexOutOfRange ∧
    outcomeOf (.matSet matA 0 3 2) State.reset = fails .indexOutOfRange := by decide
theorem test_M11 : outcomeOf (.matGetRow matA 1) State.reset = ok (.sequence (Config.bits [0, 1, 1])) ∧
    outcomeOf (.matGetRow matA 2) State.reset = fails .indexOutOfRange := by decide
theorem test_M13 : outcomeOf (.matMul matB matA) State.reset =
    ok (.matrix (mat [[1, 1, 0], [0, 1, 1], [1, 0, 1]])) := by decide
theorem test_M14 : outcomeOf (.matMul matA matA) State.reset = fails .dimensionMismatch := by decide
theorem test_M18 : outcomeOf (.matAdd (mat [[1, 1, 0, 0, 1, 1, 0, 1]]) (mat [[0, 0, 0, 0, 0, 0, 0, 1]]))
    State.reset = ok (.matrix (mat [[1, 1, 0, 0, 1, 1, 0, 0]])) := by decide
theorem test_M19 : [mat [[1], [0]], mat [[1, 0], [0, 0]], mat [[1, 0, 0]]].all
    (fun b => outcomeOf (.matAdd (mat [[1, 0]]) b) State.reset = fails .dimensionMismatch) = true := by decide
theorem test_M20 : [mat [[1, 0]], mat [[1, 1]], mat [[1], [0]]].map
    (fun b => outcomeOf (.matEq (mat [[1, 0]]) b) State.reset) =
    [ok (.scalar 1), ok (.scalar 0), ok (.scalar 0)] := by decide
theorem test_B2_B3 : outcomeOf (.bpUnpack 0xFC 4) State.reset = ok (.sequence (Config.bits [1, 1, 0, 0])) ∧
    outcomeOf (.bpUnpack 6 3) State.reset = ok (.sequence (Config.bits [1, 1, 0])) := by decide
theorem test_B5_B7 : outcomeOf (.bpUnpack 0xFF 0) State.reset = ok (.sequence []) ∧
    outcomeOf (.bpUnpack 5 9) State.reset = fails .invalidBitCount ∧
    outcomeOf (.bpUnpack 5 255) State.reset = fails .invalidBitCount := by decide
theorem test_B9_B11 : outcomeOf (.bpPack (.bits (Config.bits [1, 1, 0, 0, 1, 1, 0, 0]))) State.reset =
    ok (.packed 204) ∧ outcomeOf (.bpPack (.bits [])) State.reset = ok (.packed 0) := by decide
theorem test_B12 : outcomeOf (.bpPack .absent) State.reset = fails .invalidLength ∧
    outcomeOf (.bpPack (.tooLong 9)) State.reset = fails .invalidLength := by decide
theorem test_lookup_examples : outcomeOf (.synLookup 7) State.reset =
    ok (.pattern (mat [[1, 0, 0, 0, 0, 0, 0, 0]])) ∧
    outcomeOf (.synLookup 3) State.reset = ok (.pattern (mat [[0, 0, 0, 0, 0, 0, 1, 1]])) := by decide
theorem test_S2 : outcomeOf (.hamEncode 0b1100) State.reset = ok (.codeword 0b11001100) := by decide
theorem test_encode_corners : outcomeOf (.hamEncode 0xFC) State.reset = ok (.codeword 0xCC) ∧
    outcomeOf (.hamEncode 5) State.reset = ok (.codeword 0x55) := by decide
theorem test_S3_H5_H6 : outcomeOf (.hamDecode 0b11001100) State.reset = ok (.nibble 0b1100) ∧
    outcomeOf (.hamDecode 0x4C) State.reset = some ⟨.success (.nibble 0xC), .oneBit⟩ ∧
    outcomeOf (.hamDecode 0x15) State.reset = some ⟨.success (.nibble 0x5), .oneBit⟩ := by decide
theorem test_H8_H11_H12 : outcomeOf (.hamDecode 0xCF) State.reset =
      some ⟨.failure .uncorrectableError, .twoBit⟩ ∧
    outcomeOf (.hamDecode 0x07) State.reset = some ⟨.success (.nibble 0x8), .oneBit⟩ ∧
    outcomeOf (.hamDecode 0x1E) State.reset = ok (.nibble 0x1) := by decide

/-! ## The constants meet the constraints: those of the spec, and others

The other parity-check matrix has the columns of R13 in reverse order, so that every syndrome reads
backwards; the other table follows it, with another of the four candidates of R113 for the coset of 0x03. -/

/-- Reset with a received word presented. -/
def presented : State := served1 (.hamDecode 0xCD)

/-- The same with another H_TR and another SYN. -/
def otherTable : State :=
  { presented with
    hTr := mat [[1, 1, 1, 0], [1, 1, 0, 1], [1, 0, 1, 1], [0, 1, 1, 1],
                [0, 0, 0, 1], [0, 0, 1, 0], [0, 1, 0, 0], [1, 0, 0, 0]]
    syn := #v[rowOf 0x00, rowOf 0x08, rowOf 0x04, rowOf 0x0C, rowOf 0x02, rowOf 0x0A, rowOf 0x06,
              rowOf 0x10, rowOf 0x01, rowOf 0x09, rowOf 0x05, rowOf 0x20, rowOf 0x30, rowOf 0x40,
              rowOf 0x80, rowOf 0x11] }

/-- The constraints of R15 as one finite check. -/
def admissibleCheck (s : State) : Bool :=
  (List.finRange 16).all (fun z => decide (syndromeOf s.hTr (s.memReadSyn ⟨z⟩) = .ok ⟨z⟩)) &&
  (List.finRange 256).all (fun w => match syndromeOf s.hTr (rowOf ⟨w⟩) with
    | .ok z => decide (weight (s.memReadSyn z) ≤ weight (rowOf ⟨w⟩))
    | .error _ => false) &&
  (List.range 8).all (fun i => (List.range 8).all fun j => decide (i = j) ||
    match add (unitPattern i) (unitPattern j) with
    | .ok e => (match syndromeOf s.hTr e with
      | .ok z => decide (2 ≤ weight (s.memReadSyn z))
      | .error _ => false)
    | .error _ => false)

/-- A state with the generator of R12, and a parity-check matrix and a table that pass the finite checks. -/
theorem admissible_of_check {s : State} (hg : s.g = Config.g)
    (hhshape : s.hTr.wf = true ∧ s.hTr.rows = 8 ∧ s.hTr.cols = 4)
    (hshape : ∀ z : BitVec 4, (s.memReadSyn z).wf = true ∧ (s.memReadSyn z).rows = 1 ∧
      (s.memReadSyn z).cols = 8)
    (hproduct : mul Config.g s.hTr = .ok (zeroMatrix 4 4))
    (hwords : ∀ w : Byte, syndromeOf s.hTr (rowOf w) = .ok 0 →
      ∃ n : Fin 16, encodeWord Config.g (BitVec.ofNat 8 n) = .ok w)
    (hzero : s.memReadSyn 0 = zeroMatrix 1 8)
    (hsingle : ∀ i < 8, ∃ z, syndromeOf s.hTr (unitPattern i) = .ok z ∧ s.memReadSyn z = unitPattern i)
    (hc : admissibleCheck s = true) : Admissible s := by
  simp only [admissibleCheck, Bool.and_eq_true, List.all_eq_true, List.mem_finRange, true_implies,
    decide_eq_true_eq, List.mem_range, Bool.or_eq_true] at hc
  obtain ⟨⟨h1, h2⟩, h3⟩ := hc
  refine ⟨by rw [hg]; decide, hhshape, hshape, by rw [hg]; decide, by rw [hg, hproduct], fun w hw => ?_,
    hzero, hsingle, fun z => ⟨h1 z.toFin, fun w hw => ?_⟩, ?_, by rw [hg]; decide⟩
  · obtain ⟨n, hn⟩ := hwords w hw
    exact ⟨_, by rw [hg]; exact hn⟩
  · have := h2 w.toFin
    change (match syndromeOf s.hTr (rowOf w) with
      | .ok z => decide (weight (s.memReadSyn z) ≤ weight (rowOf w))
      | .error _ => false) = true at this
    rw [hw] at this
    simpa using this
  · intro i hi j hj hij
    have := (h3 i hi j hj).resolve_left hij
    split at this
    · split at this
      · exact ⟨_, _, by assumption, by assumption, by simpa using this⟩
      · cases this
    · cases this

set_option maxRecDepth 20000 in
theorem presented_admissible : Admissible presented :=
  admissible_of_check rfl (by decide) (by decide) (by decide) (by decide) (by decide) (by decide)
    (by decide)

set_option maxRecDepth 20000 in
theorem otherTable_admissible : Admissible otherTable :=
  admissible_of_check rfl (by decide) (by decide) (by decide) (by decide) (by decide) (by decide)
    (by decide)

theorem presented_inv : presented.Inv := ⟨presented_admissible, by decide⟩

theorem presented_constants : HasSpecConstants presented := ⟨rfl, rfl, rfl⟩

/-! ## For each statement with hypotheses, cases that meet them (each clause at its boundaries)

Where a statement's hypotheses are an admissible state, `presented_admissible` is the witness. -/

/-- 1x1 and 8x8 matrices, no raw rows and 8 rows of 8, empty, full and overlong sequences
(DecodeOfEncodeIsIdentity, LineBytesDecodeBack, EveryPresentableOperationCompletes). -/
theorem witness_well_formed :
    [Instr.matConstruct [], .matConstruct (List.replicate 8 (List.replicate 8 true)), .matConstruct [[]],
      .matRows (mat [[1]]), .matCols ones, .matGet ones 255 255, .matSet ones 7 7 255, .matGetRow ones 7,
      .matMul ones matB, .matAdd ones ones, .matEq (mat [[1]]) ones, .bpUnpack 255 255, .bpPack .absent,
      .bpPack (.bits []), .bpPack (.bits (List.replicate 8 true)), .bpPack (.tooLong 9),
      .bpPack (.tooLong 255), .synLookup 15, .hamEncode 255, .hamDecode 255].all Instr.wf = true := by decide

/-- DecodedOperationsAreWellFormed, CommandTableSelectsOperation. -/
theorem witness_decodes : (∃ i, decode 0x04 ports = .ok i) ∧ (∃ rows, ports.rowsIn.toRows = .ok rows) ∧
    (∃ a, ports.a.toMatrix = .ok a) ∧ ∃ b, ports.b.toMatrix = .ok b := ⟨⟨_, rfl⟩, ⟨_, rfl⟩, ⟨_, rfl⟩, _, rfl⟩

/-- SequenceBundleRule: absent, lengths 0, 8, 9 and 255, and an output sequence of 8. -/
theorem witness_SequenceBundleRule :
    (⟨false, 0, wires []⟩ : SeqWires).toPackOperand = .absent ∧
    (⟨true, 9, wires []⟩ : SeqWires).toPackOperand = .tooLong 9 ∧
    (⟨true, 255, wires []⟩ : SeqWires).toPackOperand = .tooLong 255 ∧
    (⟨true, 8, wires [0]⟩ : SeqWires).toPackOperand = .bits (Config.bits [0, 1, 1, 1, 1, 1, 1, 1]) ∧
    (⟨true, 0, wires []⟩ : SeqWires).toPackOperand = .bits [] ∧ (List.replicate 8 true).length ≤ 8 := by
  decide

/-- MatrixBundleRule: shapes 1x1 and 8x8; 0x1, 1x0, 9x8 and 8x15; counts 0, 8 and 9; a row of 9 before the
count and at it, one of 255 on the last row bundle, an absent one at the count, and full ones past it. -/
theorem witness_MatrixBundleRule :
    (matWires 1 1 [[0]]).toMatrix = .ok (mat [[0]]) ∧ (matWires 8 8 []).toMatrix = .ok ones ∧
    (matWires 0 1 []).toMatrix = .error (.notAMatrix 0 1) ∧
    (matWires 1 0 []).toMatrix = .error (.notAMatrix 1 0) ∧
    (matWires 9 8 []).toMatrix = .error (.notAMatrix 9 8) ∧
    (matWires 8 15 []).toMatrix = .error (.notAMatrix 8 15) ∧ ones.wf = true ∧
    (rowsWires 0 []).toRows = .ok [] ∧ (rowsWires 9 []).toRows = .error (.tooManyRows 9) ∧
    (rowsWires 8 (List.replicate 8 ⟨true, 8, wires []⟩)).toRows =
      .ok (List.replicate 8 (List.replicate 8 true)) ∧
    (rowsWires 2 [⟨true, 0, wires []⟩, ⟨true, 9, wires []⟩]).toRows = .error (.rowTooLong 9) ∧
    (rowsWires 1 [⟨true, 1, wires []⟩, ⟨true, 9, wires []⟩]).toRows = .error (.rowTooLong 9) ∧
    (rowsWires 0 (List.replicate 7 ⟨true, 0, wires []⟩ ++ [⟨true, 255, wires []⟩])).toRows =
      .error (.rowTooLong 255) ∧
    (rowsWires 1 [⟨true, 1, wires []⟩, ⟨false, 0, wires []⟩]).toRows = .error .rowAbsent ∧
    (rowsWires 1 [⟨true, 1, wires []⟩]).toRows = .ok [[true]] := by decide

/-- ReservedCommandIsRefused: both ends of each reserved range. -/
theorem witness_ReservedCommandIsRefused :
    ([0x09, 0x0F, 0x12, 0x1F, 0x21, 0x2F, 0x31, 0x3F, 0x41, 0xFF] : List Byte).all
      (fun cmd => decide (cmd ∉ listedCommands)) = true ∧
    step (State.reset.present ⟨0xFF, ports⟩) = .refused (.undecodable (.reservedCommand 0xFF)) :=
  ⟨by decide, rfl⟩

/-- ReservedValuesRule: operand a with 0 or 9 rows at codes 1 and 8, operand b with 0 or 9 columns at codes
6 and 8, a row of 9 before and past the count and a count of 9 at code 0. -/
theorem witness_ReservedValuesRule :
    (∃ e, step (State.reset.present ⟨1, { ports with a := matWires 0 1 [] }⟩) = .refused (.undecodable e)) ∧
    (∃ e, step (State.reset.present ⟨8, { ports with a := matWires 9 1 [] }⟩) = .refused (.undecodable e)) ∧
    (∃ e, step (State.reset.present ⟨6, { ports with b := matWires 1 0 [] }⟩) = .refused (.undecodable e)) ∧
    (∃ e, step (State.reset.present ⟨8, { ports with b := matWires 1 9 [] }⟩) = .refused (.undecodable e)) ∧
    (∃ e, step (State.reset.present ⟨0, { ports with rowsIn := rowsWires 1 [⟨true, 9, wires []⟩] }⟩) =
      .refused (.undecodable e)) ∧
    (∃ e, step (State.reset.present ⟨0, { ports with rowsIn := rowsWires 0 [⟨true, 9, wires []⟩] }⟩) =
      .refused (.undecodable e)) ∧
    ∃ e, step (State.reset.present ⟨0, { ports with rowsIn := rowsWires 9 [] }⟩) =
      .refused (.undecodable e) := ⟨⟨_, rfl⟩, ⟨_, rfl⟩, ⟨_, rfl⟩, ⟨_, rfl⟩, ⟨_, rfl⟩, ⟨_, rfl⟩, _, rfl⟩

theorem witness_EncodeReadsLowFourBitsOnly :
    (0xFC : Byte).extractLsb' 0 4 = (0x0C : Byte).extractLsb' 0 4 := by decide

/-- UnlistedInputsAreIgnored: the listed ports of each clause equal, every other one different. -/
theorem witness_UnlistedInputsAreIgnored :
    ports ≠ { InPorts.idle with rowsIn := ports.rowsIn } ∧
    ports ≠ { InPorts.idle with a := ports.a, r := ports.r, c := ports.c, v := ports.v } ∧
    ports ≠ { InPorts.idle with a := ports.a, b := ports.b } ∧
    ports ≠ { InPorts.idle with value := ports.value, n := ports.n } ∧
    ports ≠ { InPorts.idle with seqIn := ports.seqIn } ∧ ports ≠ { InPorts.idle with index := ports.index } ∧
    ports ≠ { InPorts.idle with srcIn := ports.srcIn } ∧ ports ≠ { InPorts.idle with cwIn := ports.cwIn } := by
  decide

/-- StepRunsDecodedOperation: a meaningful transaction, one without meaning, and none. -/
theorem witness_StepRunsDecodedOperation :
    presented.requests = [encode (.hamDecode 0xCD)] ∧
    decode (encode (.hamDecode 0xCD)).cmd (encode (.hamDecode 0xCD)).ports = .ok (.hamDecode 0xCD) ∧
    decode 0x50 ports = .error (.reservedCommand 0x50) ∧ State.reset.requests = [] := by decide

/-- TransactionLeavesStateUnchanged, RepeatedTransactionChangesNothing and, of a run of one step,
RunsNeverWriteConstants. -/
theorem witness_next : (∃ t, exec (.matSet matA 0 1 1) presented = .next t) ∧
    ∃ t, Host.Core.run Sys2Proof.core 1 presented = .next t := ⟨⟨_, rfl⟩, _, rfl⟩

/-- StepKeepsInvariant, and a step that ends in a failure. -/
theorem witness_StepKeepsInvariant : presented.Inv ∧ (∃ t, step presented = .next t) ∧
    ∃ t, step (served1 (.hamDecode 0xCF)) = .next t ∧
      t.outcome = some ⟨.failure .uncorrectableError, .twoBit⟩ := ⟨presented_inv, ⟨_, rfl⟩, _, rfl, rfl⟩

/-- OutcomeDependsOnOperandsAndConstantsOnly: two different states with the same constants. -/
theorem witness_same_constants : presented ≠ State.reset ∧ presented.g = State.reset.g ∧
    presented.hTr = State.reset.hTr ∧ presented.syn = State.reset.syn := by decide

/-- EarlierTransactionsLeaveNoTrace: a transaction after a failing one (95_test_vectors.md P3). -/
theorem witness_EarlierTransactionsLeaveNoTrace :
    ∃ s t, s.requests = [encode (.hamDecode 0x18)] ++ encode (.hamDecode 0x99) :: [] ∧
      Host.Core.run Sys2Proof.core 2 s = .next t ∧ t.outcome = ok (.nibble 0x9) :=
  ⟨(served1 (.hamDecode 0x18)).present (encode (.hamDecode 0x99)), _, rfl, rfl, rfl⟩

/-- StatusTable, FailureHasNoResultAndNoEffect: each of the seven kinds is reached. -/
theorem witness_failures :
    outcomeOf (.matConstruct []) presented = fails .invalidShape ∧
    outcomeOf (.matMul matA matA) presented = fails .dimensionMismatch ∧
    outcomeOf (.matSet matA 0 0 2) presented = fails .invalidValue ∧
    outcomeOf (.matGet matA 2 0) presented = fails .indexOutOfRange ∧
    outcomeOf (.bpUnpack 5 9) presented = fails .invalidBitCount ∧
    outcomeOf (.bpPack .absent) presented = fails .invalidLength ∧
    outcomeOf (.hamDecode 0xCF) presented = some ⟨.failure .uncorrectableError, .twoBit⟩ := by decide

/-- ResultPortOfEachOperation: every operation succeeds somewhere; two ports as the caller reads them. -/
theorem witness_ResultPortOfEachOperation :
    [Instr.matConstruct [[true]], .matRows matA, .matCols matA, .matGet matA 1 2, .matSet matA 0 1 1,
      .matGetRow matA 1, .matMul matA matB, .matAdd matA matA, .matEq matA matB, .bpUnpack 0xCC 8,
      .bpPack (.bits []), .synLookup 15, .hamEncode 5, .hamDecode 0xCD].all
      (fun i => (outcomeOf i presented).any Response.succeeded) = true ∧
    (outcomeOf (.hamEncode 5) presented).map Response.ports =
      some ⟨none, none, none, none, none, some 0x55, none, 0, 0⟩ ∧
    (outcomeOf (.synLookup 1) presented).map Response.ports =
      some ⟨none, none, none, none, some ⟨1, 8, Vector.ofFn fun r => Vector.ofFn fun c =>
        decide (r.val = 0 ∧ c.val = 7)⟩, none, none, 0, 0⟩ := by decide

/-- DiagnosticTable, EventTwoExactlyWhenUncorrectable, DecodeResult, DecodeTerminalOutcomes: syndromes whose
entries weigh 0, 1 and 2; and an operation other than Decode. -/
theorem witness_diag :
    syndromeOfWord presented 0xCC = .ok 0 ∧ weight (presented.memReadSyn 0) = 0 ∧
    syndromeOfWord presented 0xCD = .ok 1 ∧ weight (presented.memReadSyn 1) = 1 ∧
    syndromeOfWord presented 0xCF = .ok 3 ∧ weight (presented.memReadSyn 3) = 2 ∧
    outcomeOf (.hamDecode 0xCC) presented = ok (.nibble 0xC) ∧
    outcomeOf (.hamDecode 0xCD) presented = some ⟨.success (.nibble 0xC), .oneBit⟩ ∧
    outcomeOf (.hamEncode 5) presented = ok (.codeword 0x55) := by decide

/-- MeaningfulScriptIsServedToItsEnd: a script that is not empty. -/
theorem witness_MeaningfulScriptIsServedToItsEnd :
    presented.Inv ∧ presented.requests ≠ [] ∧ ∀ q ∈ presented.requests, Meaningful q := by
  refine ⟨presented_inv, by decide, fun q hq => ?_⟩
  obtain rfl : q = encode (.hamDecode 0xCD) := List.mem_singleton.1 hq
  exact ⟨.hamDecode 0xCD, rfl⟩

/-- ConstructResult: each failure clause, the smallest and the largest shape, and one row too many. -/
theorem witness_ConstructResult :
    ([[], [[true], []], [[true], [true, true]], [[true]], List.replicate 8 (List.replicate 8 true)] :
      List (List (List Bool))).all rowsWithinMaxDim = true ∧
    rowsWithinMaxDim (List.replicate 9 [true]) = false ∧
    outcomeOf (.matConstruct (List.replicate 8 (List.replicate 8 true))) presented = ok (.matrix ones) ∧
    outcomeOf (.matConstruct [[true]]) presented = ok (.matrix (mat [[1]])) := by decide

/-- RowAndColumnCounts: the smallest and the largest shape, and an element set. -/
theorem witness_RowAndColumnCounts : (mat [[1]]).wf = true ∧ ones.wf = true ∧
    exec (.matSet (mat [[0, 0]]) 0 1 1) presented =
      .next (presented.finish ⟨.success (.matrix (mat [[0, 1]])), .none⟩) := ⟨by decide, by decide, rfl⟩

/-- GetElementResult, SetElementResult, GetRowResult: the last valid indices, the first invalid ones, the
values 0, 1, 2. -/
theorem witness_indices : matA.wf = true ∧ (1 : Byte).toNat < matA.rows ∧ (2 : Byte).toNat < matA.cols ∧
    matA.rows ≤ (2 : Byte).toNat ∧ matA.cols ≤ (3 : Byte).toNat ∧
    outcomeOf (.matSet matA 1 2 0) presented = ok (.matrix (mat [[1, 0, 1], [0, 1, 0]])) ∧
    outcomeOf (.matSet matA 1 2 1) presented = ok (.matrix matA) ∧
    outcomeOf (.matSet matA 1 2 2) presented = fails .invalidValue ∧
    outcomeOf (.matGetRow matA 2) presented = fails .indexOutOfRange := by decide

/-- MultiplyResult, AddResult, EqualityResult, MatrixAlgebraLaws: shapes that fit, shapes that do not, the
largest product, a zero row, and vector M12. -/
theorem witness_shapes : matA.wf = true ∧ matB.wf = true ∧ matA.cols = matB.rows ∧ matA.cols ≠ matA.rows ∧
    matA.rows ≠ matB.rows ∧ matB.cols = matA.rows ∧
    outcomeOf (.matMul ones ones) presented = ok (.matrix (zeroMatrix 8 8)) ∧
    outcomeOf (.matMul (mat [[0, 0, 0], [0, 1, 1]]) matB) presented = ok (.matrix (mat [[0, 0], [1, 1]])) ∧
    outcomeOf (.matMul matA matB) presented = ok (.matrix (mat [[0, 1], [1, 1]])) ∧
    outcomeOf (.matAdd matB (mat [[0, 1], [1, 1], [1, 1]])) presented =
      ok (.matrix (mat [[1, 0], [1, 0], [0, 1]])) := by decide

/-- UnpackResult, PackResult, PackUnpackInverse: counts 0, 8 and 9, lengths 0, 8 and 9. -/
theorem witness_packer : (9 : Byte).toNat > 8 ∧
    outcomeOf (.bpUnpack 0xCC 8) presented = ok (.sequence (Config.bits [1, 1, 0, 0, 1, 1, 0, 0])) ∧
    outcomeOf (.bpUnpack 0xCC 0) presented = ok (.sequence []) ∧
    outcomeOf (.bpPack (.tooLong 9)) presented = fails .invalidLength ∧
    outcomeOf (.bpPack (.bits (Config.bits [1, 0, 1, 0, 0, 1, 0, 1]))) presented = ok (.packed 0xA5) ∧
    outcomeOf (.bpUnpack 0xFC 4) presented = ok (.sequence (Config.bits [1, 1, 0, 0])) ∧
    outcomeOf (.bpPack (.bits (Config.bits [1, 1, 0, 0]))) presented = ok (.packed 0x0C) := by decide

/-- SyndromeLookupResult, SyndromeTableBytes, TableEntryWeights: admissible constants, those of the spec, and
words with the first and the last syndrome. -/
theorem witness_table : Admissible presented ∧ Admissible otherTable ∧ HasSpecConstants presented ∧
    syndromeOfWord presented 0x00 = .ok 0 ∧ syndromeOfWord presented 0x0F = .ok 15 ∧
    outcomeOf (.synLookup 15) presented = ok (.pattern (mat [[0, 0, 0, 1, 0, 0, 0, 1]])) :=
  ⟨presented_admissible, otherTable_admissible, presented_constants, by decide, by decide, by decide⟩

/-- EncodeResult, EncodeBitEquations, EncodeIsSystematic, CodewordListLinearityDistance: the spec's generator,
a zero source word with its high bits set, and different codewords. -/
theorem witness_encode : HasSpecConstants presented ∧ presented.g.rows = 4 ∧ presented.g.cols = 8 ∧
    (0xF0 : Byte).extractLsb' 0 4 = 0 ∧ encodeWord presented.g 0xF0 = .ok 0 ∧
    encodeWord presented.g 5 = .ok 0x55 ∧ encodeWord presented.g 9 = .ok 0x99 ∧ (0x55 : Byte) ≠ 0x99 :=
  ⟨presented_constants, by decide⟩

/-- ZeroSyndromeExactlyForCodewords, SyndromeDependsOnlyOnTheError, CodecGuarantees: a codeword, its first
and last bit flipped, and two bits flipped. -/
theorem witness_errors : Admissible presented ∧ IsCodeword presented 0xCC ∧
    outcomeOf (.hamDecode (0xCC ^^^ (1#8 <<< 7))) presented = some ⟨.success (.nibble 0xC), .oneBit⟩ ∧
    outcomeOf (.hamDecode (0xCC ^^^ (1#8 <<< 0))) presented = some ⟨.success (.nibble 0xC), .oneBit⟩ ∧
    weight (rowOf 0x81) = 2 ∧
    outcomeOf (.hamDecode (0xCC ^^^ 0x81)) presented = some ⟨.failure .uncorrectableError, .twoBit⟩ :=
  ⟨presented_admissible, ⟨0x0C, by decide⟩, by decide⟩

/-- DecodeSameForEveryAdmissibleTable: two different admissible parity-check matrices and tables, which give one
word different syndromes. -/
theorem witness_DecodeSameForEveryAdmissibleTable : Admissible presented ∧ Admissible otherTable ∧
    presented.g = otherTable.g ∧ presented.hTr ≠ otherTable.hTr ∧ presented.syn ≠ otherTable.syn ∧
    syndromeOfWord presented 0x10 ≠ syndromeOfWord otherTable 0x10 :=
  ⟨presented_admissible, otherTable_admissible, rfl, by decide, by decide, by decide⟩

set_option maxRecDepth 20000 in
/-- OutcomesBeyondTwoErrors: a mask of each weight from 3 to 8, and the two kinds of weight 4. -/
theorem witness_OutcomesBeyondTwoErrors : HasSpecConstants presented ∧ encodeWord presented.g 0 = .ok 0 ∧
    weight (rowOf 0x07) = 3 ∧ weight (rowOf 0x1F) = 5 ∧ weight (rowOf 0x7F) = 7 ∧
    weight (rowOf 0x1E) = 4 ∧ encodeWord presented.g 1 = .ok 0x1E ∧
    weight (rowOf 0x0F) = 4 ∧ (∀ src : Byte, encodeWord presented.g src ≠ .ok 0x0F) ∧
    weight (rowOf 0x3F) = 6 ∧ weight (rowOf 0xFF) = 8 := ⟨presented_constants, by decide⟩

/-- CodecIsItsComposition: a word whose pattern weighs at most 1, and one whose pattern weighs 2. -/
theorem witness_CodecIsItsComposition : Admissible presented ∧
    outcomeOf (.synLookup 1) presented = ok (.pattern (mat [[0, 0, 0, 0, 0, 0, 0, 1]])) ∧
    weight (mat [[0, 0, 0, 0, 0, 0, 0, 1]]) ≤ 1 ∧
    outcomeOf (.synLookup 3) presented = ok (.pattern (mat [[0, 0, 0, 0, 0, 0, 1, 1]])) ∧
    2 ≤ weight (mat [[0, 0, 0, 0, 0, 0, 1, 1]]) := ⟨presented_admissible, by decide⟩

end Sys2Proof.Tests
end

/-! SUPPORT. The state (10_state.md): what a transaction and a run leave unchanged, and the constants. -/

namespace Sys2Proof.Machine

/-! ## The constants along a step and a run -/

/-- Two states hold the same three constants (R10, R11). -/
def SameConstants (s t : State) : Prop := t.g = s.g ∧ t.hTr = s.hTr ∧ t.syn = s.syn

theorem SameConstants.refl (s : State) : SameConstants s s := ⟨rfl, rfl, rfl⟩

theorem SameConstants.trans {s t u : State} : SameConstants s t → SameConstants t u → SameConstants s u
  | ⟨hg, hh, hs⟩, ⟨hg', hh', hs'⟩ => ⟨hg'.trans hg, hh'.trans hh, hs'.trans hs⟩

theorem SameConstants.admissible {s t : State} (ha : Admissible s) : SameConstants s t → Admissible t
  | ⟨hg, hh, hs⟩ => ha.congr hg hh hs

/-- A step takes one transaction off the ports and gives it an outcome; that is all. -/
theorem step_next_eq_finish {s t : State} (h : step s = .next t) : ∃ o, t = s.served.finish o := by
  obtain ⟨_, _, _, -, -, hexec⟩ := step_next h
  exact exec_next hexec

theorem step_sameConstants {s t : State} (h : step s = .next t) : SameConstants s t := by
  obtain ⟨o, rfl⟩ := step_next_eq_finish h
  exact ⟨rfl, rfl, rfl⟩

/-- A run of one more step answers a state exactly if its first step does and the rest of the run does. -/
theorem run_succ_eq_next {n : Nat} {s t : State} : Host.Core.run core (n + 1) s = .next t ↔
    ∃ u, step s = .next u ∧ Host.Core.run core n u = .next t := by
  rw [run_succ]
  cases step s <;> simp

/-- What every step keeps, a run of any length keeps. -/
theorem run_keeps {P : State → Prop} (hstep : ∀ s t, P s → step s = .next t → P t) {n : Nat} {s t : State}
    (hs : P s) (h : Host.Core.run core n s = .next t) : P t := by
  induction n generalizing s with
  | zero =>
    rw [run_zero] at h
    cases h
    exact hs
  | succ n ih =>
    obtain ⟨u, hu, hrun⟩ := run_succ_eq_next.1 h
    exact ih (hstep s u hs hu) hrun

theorem run_sameConstants {n : Nat} {s t : State} (h : Host.Core.run core n s = .next t) :
    SameConstants s t :=
  run_keeps (P := SameConstants s) (fun _ _ hs hstep => hs.trans (step_sameConstants hstep))
    (SameConstants.refl s) h

/-! ## The literals of R12, R13, R14 -/

/-- The entries of the syndrome table are what its sixteen indices read. -/
theorem exists_memReadSyn_of_mem {s : State} {e : Matrix} (h : e ∈ s.syn.toList) :
    ∃ z : BitVec 4, s.memReadSyn z = e := by
  obtain ⟨i, hi, rfl⟩ := Vector.mem_iff_getElem.1 (Vector.mem_toList_iff.1 h)
  exact ⟨⟨⟨i, hi⟩⟩, rfl⟩

theorem reset_hasSpecConstants : HasSpecConstants State.reset := ⟨rfl, rfl, rfl⟩

/-- Any state with the spec's literals meets R15: the constraints are on the constants alone, and the state
`Tests.presented`, for which they are checked item by item, has these. -/
theorem HasSpecConstants.admissible {s : State} (h : HasSpecConstants s) : Admissible s :=
  SameConstants.admissible Tests.presented_admissible h

/-! ## The obligations -/

/-- Settles O13: an operation only gives the state an outcome. -/
theorem transactionLeavesStateUnchanged : Obligations.TransactionLeavesStateUnchanged := by
  intro i s t h
  obtain ⟨o, rfl⟩ := exec_next h
  exact ⟨rfl, rfl, rfl, rfl, o, rfl⟩

/-- Settles O14: the constants by induction on the run, their shapes by item 1 of R15. -/
theorem runsNeverWriteConstants : Obligations.RunsNeverWriteConstants := by
  refine ⟨fun n s t h => run_sameConstants h, fun s hs => ?_⟩
  have ha : Admissible s := hs.admissible
  refine ⟨ha.gShape, ha.hTrShape, Vector.length_toList, fun e he => ?_⟩
  obtain ⟨z, rfl⟩ := exists_memReadSyn_of_mem he
  exact ha.synShape z

/-- Settles O17: the literals as the spec prints them, G (R12), H_TR (R13) and SYN (R14) in this order. -/
theorem resetHoldsTheConstants : Obligations.ResetHoldsTheConstants :=
  ⟨by decide, by decide, by decide⟩

/-- Settles O18: reset holds the spec's literals. -/
theorem resetConstantsAreAdmissible : Obligations.ResetConstantsAreAdmissible :=
  reset_hasSpecConstants.admissible

end Sys2Proof.Machine

/-! SUPPORT. Encodings (30_encoding.md): the operation table, the `SEQ` bundle, the status and diagnostic
tables, and the composition of the codec. -/

namespace Sys2Proof

/-! ## The operation table (R52, R55) -/

theorem mem_listedCommands_iff {cmd : Byte} : cmd ∈ listedCommands ↔
    cmd.toNat ≤ 0x08 ∨ cmd.toNat = 0x10 ∨ cmd.toNat = 0x11 ∨ cmd.toNat = 0x20 ∨ cmd.toNat = 0x30 ∨
      cmd.toNat = 0x40 := by
  simp only [listedCommands, List.mem_cons, List.not_mem_nil, or_false]
  bv_omega

/-- A code outside the table selects no operation, whatever stands on the ports (R55). -/
theorem decode_of_not_mem_listedCommands {cmd : Byte} (h : cmd ∉ listedCommands) (p : InPorts) :
    decode cmd p = .error (.reservedCommand cmd) := by
  rw [mem_listedCommands_iff] at h
  unfold decode
  split
  case h_15 => rfl
  all_goals omega

theorem module_code_eq_cmd (i : Instr) : i.cmd.extractLsb' 4 4 = i.module.code := by
  cases i <;> simp [Instr.cmd, Instr.module, Module.code]

/-! ## The `SEQ` bundle (R49) -/

theorem SeqWires.toPackOperand_absent {w : SeqWires} (hp : w.present = false) :
    w.toPackOperand = .absent := by
  simp [SeqWires.toPackOperand, hp]

theorem SeqWires.toPackOperand_tooLong {w : SeqWires} (hp : w.present = true) (hl : 8 < w.len.toNat) :
    w.toPackOperand = .tooLong w.len := by
  simp [SeqWires.toPackOperand, hp, hl]

theorem SeqWires.toPackOperand_bits {w : SeqWires} (hp : w.present = true) (hl : w.len.toNat ≤ 8) :
    w.toPackOperand = .bits w.elements := by
  simp [SeqWires.toPackOperand, hp, Nat.not_lt.2 hl]

theorem SeqWires.ofBits_wire (b : List Bool) (i : Fin 8) :
    (SeqWires.ofBits b).e[i] = (decide (i.val < b.length) && b.getD i false) := by
  by_cases h : i.val < b.length <;> simp [SeqWires.ofBits, h]

end Sys2Proof

namespace Sys2Proof.Machine

/-- A presented transaction without meaning is refused (R55, R56). -/
theorem step_of_decode_error {s : State} {q : Request} {rest : List Request} {e : DecodeError}
    (hs : s.requests = q :: rest) (h : decode q.cmd q.ports = .error e) :
    step s = .refused (.undecodable e) := by
  simp only [step, hs, h]

/-! ## The condition outputs of an outcome (R53, R54) -/

@[simp] theorem Response.ports_status (o : Response) : o.ports.status = o.ending.status := by
  unfold Response.ports
  split <;> rfl

@[simp] theorem Response.ports_diag (o : Response) : o.ports.diag = o.diag.code := by
  unfold Response.ports
  split <;> rfl

theorem FailureKind.status_ne_zero (k : FailureKind) : k.status ≠ 0 := by cases k <;> decide

theorem Ending.status_eq_zero_iff {e : Ending} : e.status = 0 ↔ ∃ r, e = .success r := by
  cases e with
  | success r => simp [Ending.status]
  | failure k => simpa [Ending.status] using k.status_ne_zero

/-- A failing transaction has no result on any port (R53, R158). -/
theorem Response.ports_of_failure {o : Response} {k : FailureKind} (h : o.ending = .failure k) :
    o.ports = noResult k.status o.diag.code := by
  obtain ⟨_, d⟩ := o
  cases h
  rfl

/-! ## How a computation can end -/

/-- A computation without events: a value it has satisfies `post`, a failure it raises is of a kind in `kinds`
and comes with no event. -/
def Ends {α : Type} (x : Tx α) (post : α → Prop) (kinds : FailureKind → Prop) : Prop :=
  match x with
  | .ok a => post a
  | .error (.failure k d) => kinds k ∧ d = .none
  | .error (.refusal _) => True

section
variable {α β : Type} {post : α → Prop} {kinds : FailureKind → Prop}

theorem Ends.ok {a : α} (h : post a) : Ends (.ok a) post kinds := h

theorem Ends.raise {k : FailureKind} (h : kinds k) : Ends (raise k : Tx α) post kinds := ⟨h, rfl⟩

theorem Ends.refuse (r : Refusal) : Ends (refuse r : Tx α) post kinds := trivial

theorem Ends.ite {c : Prop} [Decidable c] {x y : Tx α} (hx : Ends x post kinds) (hy : Ends y post kinds) :
    Ends (if c then x else y) post kinds := by
  split
  · exact hx
  · exact hy

/-- In a sequence of computations each may raise its own failures. -/
theorem Ends.bind {x : Tx β} {f : β → Tx α} (hx : Ends x (fun _ => True) kinds)
    (hf : ∀ b, Ends (f b) post kinds) : Ends (x >>= f) post kinds := by
  match x, hx with
  | .ok b, _ => exact hf b
  | .error (.failure _ _), hx => exact hx
  | .error (.refusal _), _ => trivial

end

/-! ### What each shared operation can raise -/

section
variable {kinds : FailureKind → Prop}

theorem matrixOperand_ends (m : Matrix) : Ends (matrixOperand m) (fun _ => True) kinds :=
  .ite (.ok trivial) (.refuse _)

theorem rowsOperand_ends (rows : List (List Bool)) : Ends (rowsOperand rows) (fun _ => True) kinds :=
  .ite (.ok trivial) (.refuse _)

theorem construct_ends (rows : List (List Bool)) (h : kinds .invalidShape) :
    Ends (construct rows) (fun _ => True) kinds := by
  cases rows with
  | nil => exact .raise h
  | cons first rest => exact .ite (.raise h) (.ite (.raise h) (.ok trivial))

theorem getElement_ends (m : Matrix) (r c : Byte) (h : kinds .indexOutOfRange) :
    Ends (getElement m r c) (fun _ => True) kinds :=
  .ite (.raise h) (.ok trivial)

theorem setElement_ends (m : Matrix) (r c v : Byte) (hi : kinds .indexOutOfRange)
    (hv : kinds .invalidValue) : Ends (setElement m r c v) (fun _ => True) kinds :=
  .ite (.raise hi) (.ite (.raise hv) (.ok trivial))

theorem getRow_ends (m : Matrix) (r : Byte) (h : kinds .indexOutOfRange) :
    Ends (getRow m r) (fun _ => True) kinds :=
  .ite (.raise h) (.ok trivial)

theorem mul_ends (a b : Matrix) (h : kinds .dimensionMismatch) : Ends (mul a b) (fun _ => True) kinds :=
  .ite (.raise h) (.ok trivial)

theorem add_ends (a b : Matrix) (h : kinds .dimensionMismatch) : Ends (add a b) (fun _ => True) kinds :=
  .ite (.raise h) (.ok trivial)

theorem unpack_ends (value n : Byte) (h : kinds .invalidBitCount) :
    Ends (unpack value n) (fun _ => True) kinds :=
  .ite (.raise h) (.ok trivial)

theorem pack_ends (b : List Bool) (h : kinds .invalidLength) : Ends (pack b) (fun _ => True) kinds :=
  .ite (.raise h) (.ok trivial)

theorem packOperand_ends (seq : PackOperand) (h : kinds .invalidLength) :
    Ends (packOperand seq) (fun _ => True) kinds := by
  cases seq with
  | absent => exact .raise h
  | bits b => exact pack_ends b h
  | tooLong len => exact .ite (.raise h) (.refuse _)

theorem encodeWord_ends (g : Matrix) (src : Byte) (h : ∀ k, kinds k) :
    Ends (encodeWord g src) (fun _ => True) kinds :=
  .bind (unpack_ends _ _ (h _)) fun _ => .bind (construct_ends _ (h _)) fun _ =>
    .bind (mul_ends _ _ (h _)) fun _ => .bind (getRow_ends _ _ (h _)) fun _ => pack_ends _ (h _)

end

/-! ## The status table by operation (R53) -/

/-- The failure kinds that the status table gives to an operation. -/
def failureKinds : Instr → List FailureKind
  | .matConstruct _ => [.invalidShape]
  | .matGet _ _ _ | .matGetRow _ _ => [.indexOutOfRange]
  | .matSet _ _ _ _ => [.indexOutOfRange, .invalidValue]
  | .matMul _ _ | .matAdd _ _ => [.dimensionMismatch]
  | .bpUnpack _ _ => [.invalidBitCount]
  | .bpPack _ => [.invalidLength]
  | .hamDecode _ => [.uncorrectableError]
  | .matRows _ | .matCols _ | .matEq _ _ | .synLookup _ | .hamEncode _ => []

/-- Every operation but HAM.DECODE ends without an event and raises only its own kinds. HAM.ENCODE is left open
here: with constants that do not fit, its composition can raise what the lower operations raise. -/
theorem exec_ends (i : Instr) (s : State) (hi : ∀ cw, i ≠ .hamDecode cw) :
    ∃ x, exec i s = conclude x s ∧ Ends x (fun a => a.2 = .none)
      (fun k => k ∈ failureKinds i ∨ ∃ src, i = .hamEncode src) := by
  cases i with
  | matConstruct rows =>
    exact ⟨_, rfl, .bind (rowsOperand_ends _) fun _ => .bind (construct_ends _ (by simp [failureKinds]))
      fun _ => .ok rfl⟩
  | matRows a => exact ⟨_, rfl, .bind (matrixOperand_ends _) fun _ => .ok rfl⟩
  | matCols a => exact ⟨_, rfl, .bind (matrixOperand_ends _) fun _ => .ok rfl⟩
  | matGet a r c =>
    exact ⟨_, rfl, .bind (matrixOperand_ends _) fun _ =>
      .bind (getElement_ends _ _ _ (by simp [failureKinds])) fun _ => .ok rfl⟩
  | matSet a r c v =>
    exact ⟨_, rfl, .bind (matrixOperand_ends _) fun _ =>
      .bind (setElement_ends _ _ _ _ (by simp [failureKinds]) (by simp [failureKinds])) fun _ => .ok rfl⟩
  | matGetRow a r =>
    exact ⟨_, rfl, .bind (matrixOperand_ends _) fun _ =>
      .bind (getRow_ends _ _ (by simp [failureKinds])) fun _ => .ok rfl⟩
  | matMul a b =>
    exact ⟨_, rfl, .bind (matrixOperand_ends _) fun _ => .bind (matrixOperand_ends _) fun _ =>
      .bind (mul_ends _ _ (by simp [failureKinds])) fun _ => .ok rfl⟩
  | matAdd a b =>
    exact ⟨_, rfl, .bind (matrixOperand_ends _) fun _ => .bind (matrixOperand_ends _) fun _ =>
      .bind (add_ends _ _ (by simp [failureKinds])) fun _ => .ok rfl⟩
  | matEq a b =>
    exact ⟨_, rfl, .bind (matrixOperand_ends _) fun _ => .bind (matrixOperand_ends _) fun _ => .ok rfl⟩
  | bpUnpack value n =>
    exact ⟨_, rfl, .bind (unpack_ends _ _ (by simp [failureKinds])) fun _ => .ok rfl⟩
  | bpPack seq =>
    exact ⟨_, rfl, .bind (packOperand_ends _ (by simp [failureKinds])) fun _ => .ok rfl⟩
  | synLookup index => exact ⟨.ok (.pattern (s.memReadSyn index), .none), rfl, .ok rfl⟩
  | hamEncode src => exact ⟨_, rfl, .bind (encodeWord_ends _ _ (by simp)) fun _ => .ok rfl⟩
  | hamDecode cw => exact absurd rfl (hi cw)

/-- The outcome of every operation but HAM.DECODE: no event, and a failure only of its own kinds. -/
theorem outcome_of_exec {i : Instr} {s t : State} {o : Response} (hi : ∀ cw, i ≠ .hamDecode cw)
    (h : exec i s = .next t) (ho : t.outcome = some o) : o.diag = .none ∧
      ∀ k, o.ending = .failure k → k ∈ failureKinds i ∨ ∃ src, i = .hamEncode src := by
  obtain ⟨x, hx, hends⟩ := exec_ends i s hi
  rw [hx] at h
  obtain ⟨r, d, rfl, rfl⟩ | ⟨k, d, rfl, rfl⟩ := conclude_next h <;> cases ho
  · exact ⟨hends, by simp⟩
  · obtain ⟨hk, hd⟩ := hends
    exact ⟨hd, fun _ h => by cases h; exact hk⟩

/-- The outcome that the caller reads is the one that the operation is known to answer. -/
theorem outcome_eq_of_exec {i : Instr} {s t : State} {o o' : Response}
    (hexec : exec i s = .next (s.finish o')) (h : exec i s = .next t) (ho : t.outcome = some o) : o = o' := by
  rw [hexec] at h
  cases h
  cases ho
  rfl

/-! ## An operation on operands for which its function has a value -/

section
variable (s : State)

theorem exec_matConstruct_of_ok {rows : List (List Bool)} {m : Matrix} (hr : rowsWithinMaxDim rows = true)
    (h : construct rows = .ok m) :
    exec (.matConstruct rows) s = .next (s.finish ⟨.success (.matrix m), .none⟩) := by
  simp [exec, execMatConstruct, rowsOperand_eq_ok hr, h]

theorem exec_matGetRow_of_ok {a : Matrix} {r : Byte} {b : List Bool} (ha : a.wf = true)
    (h : getRow a r = .ok b) :
    exec (.matGetRow a r) s = .next (s.finish ⟨.success (.sequence b), .none⟩) := by
  simp [exec, execMatGetRow, matrixOperand_eq_ok ha, h]

theorem exec_matMul_of_ok {a b m : Matrix} (ha : a.wf = true) (hb : b.wf = true) (h : mul a b = .ok m) :
    exec (.matMul a b) s = .next (s.finish ⟨.success (.matrix m), .none⟩) := by
  simp [exec, execMatMul, matrixOperand_eq_ok ha, matrixOperand_eq_ok hb, h]

theorem exec_matAdd_of_ok {a b m : Matrix} (ha : a.wf = true) (hb : b.wf = true) (h : add a b = .ok m) :
    exec (.matAdd a b) s = .next (s.finish ⟨.success (.matrix m), .none⟩) := by
  simp [exec, execMatAdd, matrixOperand_eq_ok ha, matrixOperand_eq_ok hb, h]

theorem exec_bpUnpack_of_ok {value n : Byte} {b : List Bool} (h : unpack value n = .ok b) :
    exec (.bpUnpack value n) s = .next (s.finish ⟨.success (.sequence b), .none⟩) := by
  simp [exec, execBpUnpack, h]

theorem exec_bpPack_of_ok {b : List Bool} {v : Byte} (h : pack b = .ok v) :
    exec (.bpPack (.bits b)) s = .next (s.finish ⟨.success (.packed v), .none⟩) := by
  simp [exec, execBpPack, packOperand, h]

theorem exec_hamEncode_of_ok {src w : Byte} (h : encodeWord s.g src = .ok w) :
    exec (.hamEncode src) s = .next (s.finish ⟨.success (.codeword w), .none⟩) := by
  simp [exec, execHamEncode, h]

end

/-! ## Outcomes over constants that meet R15 -/

/-- The event of HAM.DECODE is that of the capped count of the syndrome's entry (R133, R134), and its only
failure is the double error. -/
theorem outcome_of_hamDecode {s t : State} {cw : Byte} {o : Response} (ha : Admissible s)
    (h : exec (.hamDecode cw) s = .next t) (ho : t.outcome = some o) :
    ∃ z, syndromeOfWord s cw = .ok z ∧ o.diag = diagOfCount (cappedCount (s.memReadSyn z)) ∧
      ∀ k, o.ending = .failure k → k = .uncorrectableError := by
  obtain ⟨z, e, hz, -, -, h0, h1, h2⟩ := hamDecode_spec ha cw
  refine ⟨z, by rw [syndromeOfWord_eq, hz], ?_⟩
  have hcases : weight (s.memReadSyn z) = 0 ∨ weight (s.memReadSyn z) = 1 ∨ 2 ≤ weight (s.memReadSyn z) := by
    omega
  obtain hw | hw | hw := hcases
  · cases outcome_eq_of_exec (h0 hw) h ho
    simp [cappedCount, hw, diagOfCount]
  · cases outcome_eq_of_exec (h1 hw) h ho
    simp [cappedCount, hw, diagOfCount]
  · cases outcome_eq_of_exec (h2 hw) h ho
    simp [cappedCount, min_eq_left hw, diagOfCount]

/-- An operation fails only with the kinds that the status table gives it. -/
theorem failure_mem_failureKinds {i : Instr} {s t : State} {o : Response} {k : FailureKind}
    (ha : Admissible s) (h : exec i s = .next t) (ho : t.outcome = some o) (hk : o.ending = .failure k) :
    k ∈ failureKinds i := by
  by_cases hdec : ∃ cw, i = .hamDecode cw
  · obtain ⟨cw, rfl⟩ := hdec
    obtain ⟨_, -, -, hkind⟩ := outcome_of_hamDecode ha h ho
    simp [failureKinds, hkind k hk]
  · obtain hmem | ⟨src, rfl⟩ := (outcome_of_exec (not_exists.1 hdec) h ho).2 k hk
    · exact hmem
    · obtain ⟨w, hw, -⟩ := encodeWord_bits ha src
      cases outcome_eq_of_exec (exec_hamEncode_of_ok s hw) h ho
      cases hk

theorem diagOfCount_code (n : Nat) : (diagOfCount n).code.toNat = min 2 n := by
  match n with
  | 0 => rfl
  | 1 => rfl
  | n + 2 => simp [diagOfCount, Diag.code]

/-! ## Values of the steps of the codec -/

theorem mul_wf {a b m : Matrix} (ha : a.wf = true) (hb : b.wf = true) (h : mul a b = .ok m) :
    m.wf = true := by
  obtain ⟨har, -, -, -⟩ := (Matrix.wf_iff a).1 ha
  obtain ⟨-, hbc, -, -⟩ := (Matrix.wf_iff b).1 hb
  obtain ⟨-, rfl⟩ := mul_eq_ok_iff.1 h
  exact Matrix.wf_ofFn _ har hbc

theorem add_wf {a b m : Matrix} (ha : a.wf = true) (h : add a b = .ok m) : m.wf = true := by
  obtain ⟨har, hac, -, -⟩ := (Matrix.wf_iff a).1 ha
  unfold add at h
  split_ifs at h with hshape
  · cases h
  · cases h
    exact Matrix.wf_ofFn _ har hac

/-- An unpacked sequence has at most eight bits, so one row of it is within MAX_DIM. -/
theorem unpack_single_within {value n : Byte} {b : List Bool} (h : unpack value n = .ok b) :
    rowsWithinMaxDim [b] = true := by
  unfold unpack at h
  split_ifs at h with hn
  · cases h
  · cases h
    simpa [rowsWithinMaxDim] using hn

theorem syndromeIndex_eq_ok_iff {v : Byte} {z : BitVec 4} :
    syndromeIndex v = .ok z ↔ v.toNat < 16 ∧ v.setWidth 4 = z := by
  unfold syndromeIndex
  split_ifs with h <;> simp [h, refuse]

theorem encodeWord_eq_ok_iff {g : Matrix} {src w : Byte} : encodeWord g src = .ok w ↔
    ∃ b, unpack src 4 = .ok b ∧ ∃ m, construct [b] = .ok m ∧ ∃ c, mul m g = .ok c ∧
      ∃ q, getRow c 0 = .ok q ∧ pack q = .ok w := by
  simp only [encodeWord, except_bind_eq_ok]

theorem receivedRow_eq_ok_iff {cw : Byte} {r : Matrix} : receivedRow cw = .ok r ↔
    ∃ b, unpack cw 8 = .ok b ∧ construct [b] = .ok r := by
  simp only [receivedRow, except_bind_eq_ok]

theorem syndromeOf_eq_ok_iff {hTr r : Matrix} {i : BitVec 4} : syndromeOf hTr r = .ok i ↔
    ∃ z, mul r hTr = .ok z ∧ ∃ zr, getRow z 0 = .ok zr ∧ ∃ zi, pack zr = .ok zi ∧
      zi.toNat < 16 ∧ zi.setWidth 4 = i := by
  simp only [syndromeOf, except_bind_eq_ok, syndromeIndex_eq_ok_iff]

theorem correctedNibble_eq_ok_iff {r e : Matrix} {nib : BitVec 4} : correctedNibble r e = .ok nib ↔
    ∃ c, add r e = .ok c ∧ ∃ q, getRow c 0 = .ok q ∧ ∃ w, pack q = .ok w ∧ w.extractLsb' 4 4 = nib := by
  simp only [correctedNibble, except_bind_eq_ok, except_pure, Except.ok.injEq]

/-- Bit 3 first, bit 0 last (R57). -/
theorem unpack_four (src : Byte) : unpack src 4 =
    .ok [src.getLsbD 3, src.getLsbD 2, src.getLsbD 1, src.getLsbD 0] := rfl

theorem unpack_four_congr {src src' : Byte} (h : src.extractLsb' 0 4 = src'.extractLsb' 0 4) :
    unpack src 4 = unpack src' 4 := by
  have hbit : ∀ i < 4, src.getLsbD i = src'.getLsbD i := fun i hi => by
    simpa [hi] using congrArg (fun x : BitVec 4 => x.getLsbD i) h
  rw [unpack_four, unpack_four, hbit 3 (by decide), hbit 2 (by decide), hbit 1 (by decide),
    hbit 0 (by decide)]

/-! ## The compositions, step by step (R60) -/

/-- The composition of Encode, each step served as a transaction. -/
theorem hamEncode_composition {s : State} (ha : Admissible s) (src : Byte) :
    ∃ b m c q w, exec (.bpUnpack src 4) s = .next (s.finish ⟨.success (.sequence b), .none⟩) ∧
      exec (.matConstruct [b]) s = .next (s.finish ⟨.success (.matrix m), .none⟩) ∧
      exec (.matMul m s.g) s = .next (s.finish ⟨.success (.matrix c), .none⟩) ∧
      exec (.matGetRow c 0) s = .next (s.finish ⟨.success (.sequence q), .none⟩) ∧
      exec (.bpPack (.bits q)) s = .next (s.finish ⟨.success (.packed w), .none⟩) ∧
      exec (.hamEncode src) s = .next (s.finish ⟨.success (.codeword w), .none⟩) := by
  obtain ⟨w, hw, -⟩ := encodeWord_bits ha src
  obtain ⟨b, hb, m, hm, c, hc, q, hq, hp⟩ := encodeWord_eq_ok_iff.1 hw
  have hwithin := unpack_single_within hb
  have hmwf := construct_wf hwithin hm
  have hcwf := mul_wf hmwf ha.gShape.1 hc
  exact ⟨b, m, c, q, w, exec_bpUnpack_of_ok s hb, exec_matConstruct_of_ok s hwithin hm,
    exec_matMul_of_ok s hmwf ha.gShape.1 hc, exec_matGetRow_of_ok s hcwf hq, exec_bpPack_of_ok s hp,
    exec_hamEncode_of_ok s hw⟩

/-- The correction step of Decode (R135), each step served as a transaction. -/
theorem correction_composition (s : State) {r e : Matrix} (hr : r.wf = true) (he : e.wf = true)
    {nib : BitVec 4} (h : correctedNibble r e = .ok nib) :
    ∃ c q w, exec (.matAdd r e) s = .next (s.finish ⟨.success (.matrix c), .none⟩) ∧
      exec (.matGetRow c 0) s = .next (s.finish ⟨.success (.sequence q), .none⟩) ∧
      exec (.bpPack (.bits q)) s = .next (s.finish ⟨.success (.packed w), .none⟩) ∧
      w.extractLsb' 4 4 = nib := by
  obtain ⟨c, hc, q, hq, w, hw, hnib⟩ := correctedNibble_eq_ok_iff.1 h
  exact ⟨c, q, w, exec_matAdd_of_ok s hr he hc, exec_matGetRow_of_ok s (add_wf hr hc) hq,
    exec_bpPack_of_ok s hw, hnib⟩

/-! ## The obligations -/

/-- Settles O4: each listed code is one arm of `decode`. -/
theorem commandTableSelectsOperation : Obligations.CommandTableSelectsOperation := by
  refine ⟨fun p => ⟨fun rows hrows => ?_, fun a ha => ?_, rfl, rfl, rfl, rfl, rfl⟩, module_code_eq_cmd⟩
  · simp [decode, hrows]
  · refine ⟨?_, ?_, ?_, ?_, ?_, fun b hb => ⟨?_, ?_, ?_⟩⟩ <;> simp [decode, *]

/-- Settles O5: by `present` and `len` on inputs, by the length of the sequence on outputs. -/
theorem sequenceBundleRule : Obligations.SequenceBundleRule := by
  refine ⟨fun w => ⟨SeqWires.toPackOperand_absent, SeqWires.toPackOperand_tooLong, fun hp hl => ?_⟩,
    fun b d hb => ?_⟩
  · refine ⟨w.elements, SeqWires.toPackOperand_bits hp hl, w.length_elements, fun i hi => ?_⟩
    rw [w.getD_elements hi, wireAt_fin]
  · exact ⟨SeqWires.ofBits b, rfl, rfl, toNat_ofNat8 hb, SeqWires.ofBits_wire b⟩

/-- Settles O7: the five ranges are the complement of the table, and `decode` answers its last arm there. -/
theorem reservedCommandIsRefused : Obligations.ReservedCommandIsRefused := by
  refine fun cmd => ⟨?_, fun h p s rest hs =>
    step_of_decode_error hs (decode_of_not_mem_listedCommands h p)⟩
  rw [mem_listedCommands_iff]
  omega

/-- Settles O9: Encode reads its port only by unpacking four bits. -/
theorem encodeReadsLowFourBitsOnly : Obligations.EncodeReadsLowFourBitsOnly := by
  refine ⟨fun s src src' h => ?_, unpack_four⟩
  have hword : encodeWord s.g src = encodeWord s.g src' := by
    rw [encodeWord, unpack_four_congr h, encodeWord]
  simp only [exec, execHamEncode, hword]

/-- Settles O22: a failure is of one of its operation's kinds, and the table is read by kind. -/
theorem statusTable : Obligations.StatusTable := by
  refine ⟨fun o => ⟨by rw [o.ports_status, Ending.status_eq_zero_iff], fun hs => ?_⟩,
    fun i s t o k ha h ho hk => ?_⟩
  · obtain ⟨r | k, d⟩ := o
    · exact absurd (Response.ports_status _) hs
    · rfl
  · have hmem := failure_mem_failureKinds ha h ho hk
    have hs : o.ports.status = k.status := by rw [o.ports_status, hk, Ending.status]
    rw [hs]
    cases i <;> simp only [failureKinds, List.mem_cons, List.not_mem_nil, or_false] at hmem
    case matSet => obtain rfl | rfl := hmem <;> simp [FailureKind.status]
    all_goals subst hmem; simp [FailureKind.status]

/-- Settles O23: an operation other than HAM.DECODE emits no event, HAM.DECODE the one of its capped count. -/
theorem diagnosticTable : Obligations.DiagnosticTable := by
  refine ⟨fun i s t o hi h ho => ?_, fun s t cw o ha h ho => ?_⟩
  · rw [o.ports_diag, (outcome_of_exec hi h ho).1, Diag.code]
  · obtain ⟨z, hz, hd, -⟩ := outcome_of_hamDecode ha h ho
    exact ⟨z, hz, by rw [o.ports_diag, hd, diagOfCount_code, cappedCount, ← min_assoc, min_self]⟩

/-- Settles O54: where a composition has a value, so has each of its steps, and `exec` serves that step. -/
theorem codecIsItsComposition : Obligations.CodecIsItsComposition := by
  refine ⟨fun s src ha => hamEncode_composition ha src, fun s cw ha => ?_⟩
  obtain ⟨i, e, hi, he, -, hdec0, hdec1, hdec2⟩ := hamDecode_spec ha cw
  obtain ⟨b, hb, hr⟩ := receivedRow_eq_ok_iff.1 (receivedRow_eq cw)
  obtain ⟨z, hz, zr, hzr, zi, hzi, hlt, rfl⟩ := syndromeOf_eq_ok_iff.1 hi
  refine ⟨b, rowOf cw, z, zr, zi, s.memReadSyn (zi.setWidth 4), exec_bpUnpack_of_ok s hb,
    exec_matConstruct_of_ok s (unpack_single_within hb) hr,
    exec_matMul_of_ok s (rowOf_wf cw) ha.hTrShape.1 hz,
    exec_matGetRow_of_ok s (mul_wf (rowOf_wf cw) ha.hTrShape.1 hz) hzr, exec_bpPack_of_ok s hzi, hlt,
    exec_synLookup _ s, hdec2, fun hw => ?_⟩
  obtain ⟨c, q, w, hadd, hrow, hpack, hnib⟩ :=
    correction_composition s (rowOf_wf cw) (rowOf_wf e) (correctedNibble_spec cw e)
  rw [← he] at hadd
  refine ⟨c, q, w, hadd, hrow, hpack, ?_⟩
  rw [hnib]
  obtain h0 | h1 := Nat.le_one_iff_eq_zero_or_eq_one.1 hw
  · rw [if_pos h0, hdec0 h0]
  · rw [if_neg (by omega), hdec1 h1]

end Sys2Proof.Machine

/-! SUPPORT. The nine operations of binary_matrix_gf2 (40_binary_matrix_gf2.md, R71 to R79). -/

namespace Sys2Proof

/-- Matrix values are equal exactly if their shapes and all their elements are (R16). -/
theorem Matrix.eq_iff_of_wf {a b : Matrix} (ha : a.wf = true) (hb : b.wf = true) : a = b ↔
    a.rows = b.rows ∧ a.cols = b.cols ∧ ∀ i < a.rows, ∀ j < a.cols, a.bit i j = b.bit i j := by
  constructor
  · rintro rfl
    exact ⟨rfl, rfl, fun _ _ _ _ => rfl⟩
  · rintro ⟨hr, hc, h⟩
    exact Matrix.ext_of_wf ha hb hr hc h

end Sys2Proof

namespace Sys2Proof.Machine

/-! ## Element values and the zero matrix -/

theorem bitByte_eq_ite (x : Bool) : bitByte x = if x then 1 else 0 := by cases x <;> rfl

theorem bitByte_eq_one_iff {x : Bool} : bitByte x = 1 ↔ x = true := by cases x <;> decide

theorem zeroMatrix_wf {a : Matrix} (ha : a.wf = true) : (zeroMatrix a.rows a.cols).wf = true := by
  obtain ⟨hr, hc, -, -⟩ := (Matrix.wf_iff a).1 ha
  exact Matrix.wf_ofFn _ hr hc

/-! ## Values of setElement and add -/

/-- SetElement keeps the shape (R75). -/
theorem setElement_shape {a m : Matrix} {r c v : Byte} (h : setElement a r c v = .ok m) :
    m.rows = a.rows ∧ m.cols = a.cols := by
  unfold setElement at h
  split_ifs at h
  · cases h
  · cases h
  · cases h
    exact ⟨rfl, rfl⟩

/-- SetElement inside the shape with a value of 0 or 1 (R75). -/
theorem setElement_spec {a : Matrix} {r c v : Byte} (ha : a.wf = true) (hr : r.toNat < a.rows)
    (hc : c.toNat < a.cols) (hv : v.toNat ≤ 1) : ∃ m, setElement a r c v = .ok m ∧ m.wf = true ∧
      ∀ i < a.rows, ∀ j < a.cols,
        m.bit i j = if i = r.toNat ∧ j = c.toNat then decide (v.toNat = 1) else a.bit i j := by
  obtain ⟨hrows, hcols, -, -⟩ := (Matrix.wf_iff a).1 ha
  have hone : (v = 1) = (v.toNat = 1) := by rw [BitVec.toNat_eq]; rfl
  refine ⟨_, setElement_eq_ok hr hc (by bv_omega), Matrix.wf_ofFn _ hrows hcols, fun i hi j hj => ?_⟩
  simp only [Matrix.bit_ofFn_of_lt _ hi hj, hone]

/-- Every matrix is its own inverse (R78). -/
theorem add_self_eq_ok (a : Matrix) : add a a = .ok (zeroMatrix a.rows a.cols) := by
  simp [add_eq_ok (a := a) (b := a) rfl rfl, zeroMatrix]

/-- The zero matrix is neutral (R78). -/
theorem add_zeroMatrix_eq_ok {a : Matrix} (ha : a.wf = true) : add a (zeroMatrix a.rows a.cols) = .ok a := by
  rw [add_eq_ok (a := a) (b := zeroMatrix a.rows a.cols) rfl rfl]
  conv_rhs => rw [Matrix.eq_ofFn_of_wf ha]
  refine congrArg _ (Matrix.ofFn_congr fun i hi j hj => ?_)
  rw [zeroMatrix, Matrix.bit_ofFn_of_lt _ hi hj, Bool.xor_false]

/-! ## Each operation on matrix values: its function's value, or the failure that its function raises -/

section
variable (s : State)

theorem exec_matConstruct_of_raise {rows : List (List Bool)} {k : FailureKind}
    (hr : rowsWithinMaxDim rows = true) (h : construct rows = raise k) :
    exec (.matConstruct rows) s = .next (s.finish ⟨.failure k, .none⟩) := by
  simp [exec, execMatConstruct, rowsOperand_eq_ok hr, h, raise]

/-- Raw rows above MAX_DIM have no meaning (R50, R71). -/
theorem exec_matConstruct_aboveMaxDim {rows : List (List Bool)} (hr : rowsWithinMaxDim rows = false) :
    exec (.matConstruct rows) s = .refused .aboveMaxDim := by
  simp [exec, execMatConstruct, rowsOperand, hr, refuse]

variable {a b : Matrix} (ha : a.wf = true)
include ha

theorem exec_matRows_eq : exec (.matRows a) s =
    .next (s.finish ⟨.success (.scalar (BitVec.ofNat 8 a.rows)), .none⟩) := by
  simp [exec, execMatRows, matrixOperand_eq_ok ha]

theorem exec_matCols_eq : exec (.matCols a) s =
    .next (s.finish ⟨.success (.scalar (BitVec.ofNat 8 a.cols)), .none⟩) := by
  simp [exec, execMatCols, matrixOperand_eq_ok ha]

theorem exec_matGet_of_ok {r c : Byte} {x : Bool} (h : getElement a r c = .ok x) :
    exec (.matGet a r c) s = .next (s.finish ⟨.success (.scalar (bitByte x)), .none⟩) := by
  simp [exec, execMatGet, matrixOperand_eq_ok ha, h]

theorem exec_matGet_of_raise {r c : Byte} {k : FailureKind} (h : getElement a r c = raise k) :
    exec (.matGet a r c) s = .next (s.finish ⟨.failure k, .none⟩) := by
  simp [exec, execMatGet, matrixOperand_eq_ok ha, h, raise]

theorem exec_matSet_of_ok {r c v : Byte} {m : Matrix} (h : setElement a r c v = .ok m) :
    exec (.matSet a r c v) s = .next (s.finish ⟨.success (.matrix m), .none⟩) := by
  simp [exec, execMatSet, matrixOperand_eq_ok ha, h]

theorem exec_matSet_of_raise {r c v : Byte} {k : FailureKind} (h : setElement a r c v = raise k) :
    exec (.matSet a r c v) s = .next (s.finish ⟨.failure k, .none⟩) := by
  simp [exec, execMatSet, matrixOperand_eq_ok ha, h, raise]

theorem exec_matGetRow_of_raise {r : Byte} {k : FailureKind} (h : getRow a r = raise k) :
    exec (.matGetRow a r) s = .next (s.finish ⟨.failure k, .none⟩) := by
  simp [exec, execMatGetRow, matrixOperand_eq_ok ha, h, raise]

variable (hb : b.wf = true)
include hb

theorem exec_matMul_of_raise {k : FailureKind} (h : mul a b = raise k) :
    exec (.matMul a b) s = .next (s.finish ⟨.failure k, .none⟩) := by
  simp [exec, execMatMul, matrixOperand_eq_ok ha, matrixOperand_eq_ok hb, h, raise]

theorem exec_matAdd_of_raise {k : FailureKind} (h : add a b = raise k) :
    exec (.matAdd a b) s = .next (s.finish ⟨.failure k, .none⟩) := by
  simp [exec, execMatAdd, matrixOperand_eq_ok ha, matrixOperand_eq_ok hb, h, raise]

theorem exec_matEq_eq : exec (.matEq a b) s =
    .next (s.finish ⟨.success (.scalar (bitByte (equal a b))), .none⟩) := by
  simp [exec, execMatEq, matrixOperand_eq_ok ha, matrixOperand_eq_ok hb]

end

/-- A matrix that MAT.SET answers is one that SetElement computed. -/
theorem setElement_eq_ok_of_exec {s : State} {a m : Matrix} {r c v : Byte}
    (h : exec (.matSet a r c v) s = .next (s.finish ⟨.success (.matrix m), .none⟩)) :
    setElement a r c v = .ok m := by
  obtain ⟨_, -, hset⟩ := except_bind_eq_ok.1 (conclude_eq_success h rfl)
  obtain ⟨m', hm', hres⟩ := except_bind_eq_ok.1 hset
  cases hres
  exact hm'

/-! ## The obligations -/

/-- Settles O28: the two shape checks of `construct`, behind the bound on raw rows. -/
theorem constructResult : Obligations.ConstructResult := by
  refine fun s rows => ⟨rfl, fun hr hbad => exec_matConstruct_of_raise s hr (construct_of_badShape hbad),
    fun n hr hne hn hlen => ?_, exec_matConstruct_aboveMaxDim s⟩
  have hm := construct_of_goodShape hne hn hlen
  exact ⟨_, exec_matConstruct_of_ok s hr hm, construct_wf hr hm, rfl, rfl, fun _ _ _ _ => rfl⟩

/-- Settles O29: a count of a matrix value fits the port, and SetElement keeps the shape. -/
theorem rowAndColumnCounts : Obligations.RowAndColumnCounts := by
  intro s a ha
  obtain ⟨⟨hr1, hr8⟩, ⟨hc1, hc8⟩, -, -⟩ := (Matrix.wf_iff a).1 ha
  refine ⟨rfl, rfl, ⟨_, exec_matRows_eq s ha, ?_⟩, ⟨_, exec_matCols_eq s ha, ?_⟩,
    fun r c v m h => setElement_shape (setElement_eq_ok_of_exec h)⟩
  · rw [toNat_ofNat8 hr8]
    exact ⟨rfl, hr1, hr8⟩
  · rw [toNat_ofNat8 hc8]
    exact ⟨rfl, hc1, hc8⟩

/-- Settles O30: by the bounds check of GetElement. -/
theorem getElementResult : Obligations.GetElementResult := fun s _ _ _ ha =>
  ⟨rfl, fun hout => exec_matGet_of_raise s ha (getElement_outOfRange hout),
    fun hr hc => ⟨_, exec_matGet_of_ok s ha (getElement_eq_ok hr hc), bitByte_eq_ite _⟩⟩

/-- Settles O31: by the two checks of SetElement, in their order, then element by element. -/
theorem setElementResult : Obligations.SetElementResult := by
  refine fun s a r c v ha => ⟨rfl, fun hout => exec_matSet_of_raise s ha (setElement_outOfRange v hout),
    fun hr hc hv => exec_matSet_of_raise s ha (setElement_badValue hr hc (by bv_omega)), fun hr hc hv => ?_⟩
  obtain ⟨m, hset, hwf, hbit⟩ := setElement_spec ha hr hc hv
  obtain ⟨hrows, hcols⟩ := setElement_shape hset
  refine ⟨m, exec_matSet_of_ok s ha hset, hwf, hrows, hcols, ?_, fun i hi j hj hne => ?_, fun hsame => ?_⟩
  · rw [hbit _ hr _ hc, if_pos ⟨rfl, rfl⟩]
  · rw [hbit i hi j hj, if_neg hne]
  · refine Matrix.ext_of_wf hwf ha hrows hcols fun i hi j hj => ?_
    rw [hbit i (hrows ▸ hi) j (hcols ▸ hj)]
    split
    next heq => rw [heq.1, heq.2, hsame]
    next => rfl

/-- Settles O32: by the bounds check of GetRow; a row lists the elements by column. -/
theorem getRowResult : Obligations.GetRowResult := by
  refine fun s a r ha => ⟨rfl, fun hout => exec_matGetRow_of_raise s ha (getRow_outOfRange hout),
    fun hr => ⟨_, exec_matGetRow_of_ok s ha (getRow_eq_ok hr), a.length_rowBits _, fun j hj => ?_⟩⟩
  rw [Matrix.getD_rowBits, decide_eq_true hj, Bool.true_and]

/-- Settles O33: by the inner dimensions; a sum whose left factors are all 0 is 0. -/
theorem multiplyResult : Obligations.MultiplyResult := by
  refine ⟨fun s a b ha hb => ⟨rfl, fun hne => exec_matMul_of_raise s ha hb (mul_mismatch hne),
    fun heq => ?_⟩, fun s => exec_matMul_of_ok s (by decide) (by decide) (by decide)⟩
  have hm := mul_eq_ok heq
  refine ⟨_, exec_matMul_of_ok s ha hb hm, mul_wf ha hb hm, rfl, rfl,
    fun i hi j hj => Matrix.bit_ofFn_of_lt _ hi hj, fun i hi hzero j hj => ?_⟩
  rw [Matrix.bit_ofFn_of_lt _ hi hj, xorSum_congr fun k hk => by rw [hzero k hk, Bool.false_and],
    xorSum_false]

/-- Settles O34: by the shape check of `add`, and its two laws with the zero matrix. -/
theorem addResult : Obligations.AddResult := by
  refine fun s a b ha hb => ⟨rfl, fun hne => exec_matAdd_of_raise s ha hb (add_mismatch hne),
    fun hr hc => ?_, exec_matAdd_of_ok s ha ha (add_self_eq_ok a),
    exec_matAdd_of_ok s ha (zeroMatrix_wf ha) (add_zeroMatrix_eq_ok ha)⟩
  have hm := add_eq_ok hr hc
  exact ⟨_, exec_matAdd_of_ok s ha hb hm, add_wf ha hm, rfl, rfl,
    fun i hi j hj => Matrix.bit_ofFn_of_lt _ hi hj⟩

/-- Settles O35: the bit is 1 exactly for equal values, and values are equal exactly if shape and elements are. -/
theorem equalityResult : Obligations.EqualityResult := by
  intro s a b ha hb
  have hone : bitByte (equal a b) = 1 ↔ a = b := bitByte_eq_one_iff.trans (equal_iff ha hb)
  refine ⟨rfl, _, exec_matEq_eq s ha hb, ?_, hone.trans (Matrix.eq_iff_of_wf ha hb), hone⟩
  rw [bitByte_eq_ite]
  split
  · exact .inr rfl
  · exact .inl rfl

end Sys2Proof.Machine

/-! SUPPORT. The two operations of bit_packer (41_bit_packer.md, R100, R101). -/

namespace Sys2Proof.Machine

/-- A packed sequence is an integer below 2^L (R101): above its elements every bit is 0. -/
theorem packBits_lt (b : List Bool) : (packBits b).toNat < 2 ^ b.length := by
  refine Nat.lt_pow_two_of_testBit _ fun i hi => ?_
  rw [BitVec.testBit_toNat]
  by_cases h8 : i < 8
  · rw [getLsbD_packBits b h8, List.getD_eq_default _ _ (by rwa [List.length_reverse])]
  · exact BitVec.getLsbD_of_ge _ _ (Nat.le_of_not_lt h8)

/-! ## Each operation where its function raises a failure -/

section
variable (s : State) {k : FailureKind}

theorem exec_bpUnpack_of_raise {value n : Byte} (h : unpack value n = raise k) :
    exec (.bpUnpack value n) s = .next (s.finish ⟨.failure k, .none⟩) := by
  simp [exec, execBpUnpack, h, raise]

theorem exec_bpPack_of_raise {seq : PackOperand} (h : packOperand seq = raise k) :
    exec (.bpPack seq) s = .next (s.finish ⟨.failure k, .none⟩) := by
  simp [exec, execBpPack, h, raise]

end

theorem packOperand_tooLong {len : Byte} (h : 8 < len.toNat) :
    packOperand (.tooLong len) = raise .invalidLength := if_pos h

/-! ## The obligations -/

/-- Settles O37: by the bound on the count; the elements are listed by their index. -/
theorem unpackResult : Obligations.UnpackResult := by
  refine fun s value n => ⟨rfl, fun hn => exec_bpUnpack_of_raise s (unpack_badCount hn),
    fun hn => ⟨_, exec_bpUnpack_of_ok s (unpack_eq_ok hn), ?_, fun i hi => ?_⟩⟩
  · rw [List.length_map, List.length_range]
  · rw [List.getD_map_range, if_pos hi]

/-- Settles O38: by the form of the operand; the packed value is given by its bits and its bound. -/
theorem packResult : Obligations.PackResult := fun s =>
  ⟨fun _ => rfl, exec_bpPack_of_raise s rfl,
    fun _ hlen => exec_bpPack_of_raise s (packOperand_tooLong hlen),
    fun b hb => ⟨packBits b, exec_bpPack_of_ok s (pack_eq_ok hb), packBits_lt b,
      fun _ hi => getLsbD_packBits_sub hb hi⟩,
    exec_bpPack_of_ok s (pack_eq_ok (Nat.zero_le 8))⟩

end Sys2Proof.Machine

/-! SUPPORT. The operation of syndrome_lookup_table (42_syndrome_lookup_table.md, R110, R111). -/

namespace Sys2Proof.Machine

/-- The bytes of the table in index order, as R111 lists them. -/
def syndromeBytes : List Byte :=
  [0x00, 0x01, 0x02, 0x03, 0x04, 0x05, 0x06, 0x80, 0x08, 0x09, 0x0A, 0x40, 0x0C, 0x20, 0x10, 0x11]

/-- The literals of R14 are the row vectors of the bytes of R111. -/
theorem config_syn_eq_rowOf :
    ∀ z : BitVec 4, Config.syn[z.toFin] = rowOf (syndromeBytes.getD z.toNat 0) := by decide

/-- With the spec's constants, the table reads as the bytes of R111. -/
theorem HasSpecConstants.memReadSyn_eq_rowOf {s : State} (h : HasSpecConstants s) (z : BitVec 4) :
    s.memReadSyn z = rowOf (syndromeBytes.getD z.toNat 0) := by
  obtain ⟨-, -, hsyn⟩ := h
  rw [State.memReadSyn, hsyn, config_syn_eq_rowOf]

/-! ## The obligations -/

/-- Settles O40: the lookup is the table read, whose shape and entry 0 are items 1 and 4 of R15. -/
theorem syndromeLookupResult : Obligations.SyndromeLookupResult := fun s z =>
  ⟨rfl, exec_synLookup z s, fun ha => ha.synShape z, fun ha => by rw [exec_synLookup, ha.entryZero]⟩

/-- Settles O41: the lookup is the table read, which gives the row vectors of the listed bytes. -/
theorem syndromeTableBytes : Obligations.SyndromeTableBytes := by
  intro s z hs
  rw [exec_synLookup, hs.memReadSyn_eq_rowOf]
  rfl

end Sys2Proof.Machine

/-! SUPPORT. The operation of hamming_encoder_8_4 (43_hamming_encoder_8_4.md, R120, R122). -/

namespace Sys2Proof.Machine

/-- Encode reads the low four bits of its input only (R57). -/
theorem encodeWord_congr (g : Matrix) {src src' : Byte} (h : src.extractLsb' 0 4 = src'.extractLsb' 0 4) :
    encodeWord g src = encodeWord g src' := by
  unfold encodeWord
  rw [unpack_four_congr h]

/-- The zero word encodes to the zero word, with any 4x8 generator (R120). -/
theorem encodeWord_zero {g : Matrix} (hr : g.rows = 4) (hc : g.cols = 8) : encodeWord g 0 = .ok 0 := by
  obtain ⟨cw, hcw, hbits⟩ := encodeWord_spec hr hc 0
  have hzero : cw = 0 := eq_of_bits fun j hj => by simpa using hbits j hj
  rw [hcw, hzero]

/-! ## The obligations -/

/-- Settles O43: the bits are those of `s·G`; an input of low bits 0 encodes as 0 does; the example is item 8
of R15. -/
theorem encodeResult : Obligations.EncodeResult := by
  refine ⟨fun s src hr hc => ⟨rfl, ?_⟩, fun s ha => exec_hamEncode_of_ok s ha.workedExample⟩
  obtain ⟨cw, hcw, hbits⟩ := encodeWord_spec hr hc src
  refine ⟨cw, exec_hamEncode_of_ok s hcw, hbits, fun hlow => ?_⟩
  have hzero : encodeWord s.g src = .ok 0 := (encodeWord_congr s.g hlow).trans (encodeWord_zero hr hc)
  exact Except.ok.inj (hcw.symm.trans hzero)

/-- Settles O45: with the systematic G of R15 item 2, the top four bits of a codeword are its source word. -/
theorem encodeIsSystematic : Obligations.EncodeIsSystematic := by
  intro s src ha
  obtain ⟨cw, hcw, -⟩ := encodeWord_bits ha src
  exact ⟨cw, exec_hamEncode_of_ok s hcw, encodeWord_top ha hcw⟩

end Sys2Proof.Machine

/-! SUPPORT. Decode of a codeword with a given error (44_hamming_decoder_8_4.md, R130 to R137). -/

namespace Sys2Proof.Machine

/-! ## Masks of weight 0, 1 and 2 -/

/-- The weight of a word counts the columns that hold a 1 (R9). -/
theorem weight_rowOf (w : Byte) :
    weight (rowOf w) = ((Finset.range 8).filter fun j => w.getLsbD (7 - j) = true).card := by
  have helems : (rowOf w).elems.flatten = (List.range 8).map fun j => w.getLsbD (7 - j) := by
    simp [rowOf, Matrix.ofFn]
  rw [weight, helems, List.count, List.countP_map, ← Nat.count_eq_card_filter_range, Nat.count]
  simp [Function.comp_def]

/-- The row vector of the mask that flips one bit. -/
theorem rowOf_shiftLeft_one : ∀ p < 8, rowOf (1#8 <<< p) = unitPattern (7 - p) := by decide

theorem unitPattern_bit (i : Nat) {j : Nat} (hj : j < 8) : (unitPattern i).bit 0 j = decide (j = i) :=
  Matrix.bit_ofFn_of_lt _ Nat.one_pos hj

theorem weight_unitPattern : ∀ i < 8, weight (unitPattern i) = 1 := by decide

/-- A mask of weight 2 flips two different columns. -/
theorem exists_add_unitPattern_of_weight_two {mask : Byte} (h : weight (rowOf mask) = 2) :
    ∃ i < 8, ∃ j < 8, i ≠ j ∧ add (unitPattern i) (unitPattern j) = .ok (rowOf mask) := by
  rw [weight_rowOf, Finset.card_eq_two] at h
  obtain ⟨i, j, hij, hset⟩ := h
  have hmem : ∀ k, (k < 8 ∧ mask.getLsbD (7 - k) = true) ↔ k = i ∨ k = j := fun k => by
    simpa using Finset.ext_iff.1 hset k
  refine ⟨i, ((hmem i).2 (.inl rfl)).1, j, ((hmem j).2 (.inr rfl)).1, hij, ?_⟩
  rw [add_eq_ok (a := unitPattern i) (b := unitPattern j) rfl rfl]
  refine congrArg _ (Matrix.ofFn_congr fun r hr c hc => ?_)
  obtain rfl : r = 0 := Nat.lt_one_iff.1 hr
  have hcol : mask.getLsbD (7 - c) = true ↔ c = i ∨ c = j := (and_iff_right hc).symm.trans (hmem c)
  rw [unitPattern_bit i hc, unitPattern_bit j hc, Bool.eq_iff_iff, hcol]
  by_cases hci : c = i
  · simp [hci, hij]
  · simp [hci]

/-! ## Decode of a codeword XOR a mask -/

section
variable {s : State} (ha : Admissible s)
include ha

/-- `hamDecode_spec` where the syndrome and its entry are known. -/
theorem hamDecode_of_syndrome {w e : Byte} {z : BitVec 4} (hz : syndromeOf s.hTr (rowOf w) = .ok z)
    (he : s.memReadSyn z = rowOf e) :
    (weight (s.memReadSyn z) = 0 → exec (.hamDecode w) s =
      .next (s.finish ⟨.success (.nibble ((w ^^^ e).extractLsb' 4 4)), .none⟩)) ∧
    (weight (s.memReadSyn z) = 1 → exec (.hamDecode w) s =
      .next (s.finish ⟨.success (.nibble ((w ^^^ e).extractLsb' 4 4)), .oneBit⟩)) ∧
    (2 ≤ weight (s.memReadSyn z) → exec (.hamDecode w) s =
      .next (s.finish ⟨.failure .uncorrectableError, .twoBit⟩)) := by
  obtain ⟨z', e', hz', he', -, hends⟩ := hamDecode_spec ha w
  cases hz.symm.trans hz'
  cases rowOf_inj (he.symm.trans he')
  exact hends

variable {src cw : Byte} (hcw : encodeWord s.g src = .ok cw)
include hcw

/-- The syndrome depends on the error alone (R132). -/
theorem syndrome_codeword_xor {mask : Byte} {z : BitVec 4} (hz : syndromeOf s.hTr (rowOf mask) = .ok z) :
    syndromeOf s.hTr (rowOf (cw ^^^ mask)) = .ok z := by
  rw [syndrome_rowOf_xor ha (syndrome_of_codeword ha hcw) hz]
  exact congrArg _ BitVec.zero_xor

/-- No error: entry 0 is the zero pattern, so nothing is corrected (R124). -/
theorem hamDecode_codeword : exec (.hamDecode cw) s =
    .next (s.finish ⟨.success (.nibble (src.extractLsb' 0 4)), .none⟩) := by
  have he : s.memReadSyn 0 = rowOf 0#8 := ha.entryZero
  have hw : weight (s.memReadSyn 0) = 0 := by rw [he]; decide
  obtain ⟨hnone, -, -⟩ := hamDecode_of_syndrome ha (syndrome_of_codeword ha hcw) he
  rw [hnone hw, BitVec.xor_zero, encodeWord_top ha hcw]

/-- One flipped bit: its pattern stands in the table (R15 item 5) and corrects it (R137). -/
theorem hamDecode_codeword_flip {p : Nat} (hp : p < 8) : exec (.hamDecode (cw ^^^ (1#8 <<< p))) s =
    .next (s.finish ⟨.success (.nibble (src.extractLsb' 0 4)), .oneBit⟩) := by
  obtain ⟨z, hz, he⟩ := ha.single (7 - p) (by omega)
  have hw : weight (s.memReadSyn z) = 1 := he ▸ weight_unitPattern (7 - p) (by omega)
  rw [← rowOf_shiftLeft_one p hp] at hz he
  obtain ⟨-, hone, -⟩ := hamDecode_of_syndrome ha (syndrome_codeword_xor ha hcw hz) he
  rw [hone hw, BitVec.xor_assoc, BitVec.xor_self, BitVec.xor_zero, encodeWord_top ha hcw]

/-- Two flipped bits: the entry of their syndrome weighs at least 2 (R15 item 7), so Decode fails (R137). -/
theorem hamDecode_codeword_double {mask : Byte} (hmask : weight (rowOf mask) = 2) :
    exec (.hamDecode (cw ^^^ mask)) s = .next (s.finish ⟨.failure .uncorrectableError, .twoBit⟩) := by
  obtain ⟨i, hi, j, hj, hij, hadd⟩ := exists_add_unitPattern_of_weight_two hmask
  obtain ⟨e, z, hadd', hz, hw⟩ := ha.double i hi j hj hij
  cases hadd.symm.trans hadd'
  obtain ⟨e, he⟩ := exists_entry_word ha z
  obtain ⟨-, -, htwo⟩ := hamDecode_of_syndrome ha (syndrome_codeword_xor ha hcw hz) he
  exact htwo hw

end

/-! ## The obligations -/

/-- Settles O51: the codeword of the source word, then Decode by the weight of the error. -/
theorem codecGuarantees : Obligations.CodecGuarantees := by
  intro s src ha
  obtain ⟨cw, hcw, -⟩ := encodeWord_bits ha src
  exact ⟨cw, exec_hamEncode_of_ok s hcw, hamDecode_codeword ha hcw,
    fun _ hp => hamDecode_codeword_flip ha hcw hp, fun _ hmask => hamDecode_codeword_double ha hcw hmask⟩

end Sys2Proof.Machine

/-! SUPPORT. Failures (60_exceptions.md): what a failing transaction leaves for the caller to read. -/

namespace Sys2Proof.Machine

/-! ## The state after a transaction -/

/-- The outcome that the caller reads is all that a transaction gave the state (R10, R158). -/
theorem exec_next_eq_finish_outcome {i : Instr} {s t : State} {o : Response} (h : exec i s = .next t)
    (ho : t.outcome = some o) : t = s.finish o := by
  obtain ⟨o', rfl⟩ := exec_next h
  cases ho
  rfl

/-! ## The obligation -/

/-- Settles O25: the state gets that outcome only, and the ports of a failure are `noResult`. -/
theorem failureHasNoResultAndNoEffect : Obligations.FailureHasNoResultAndNoEffect := by
  intro i s t k d h ho
  rw [Response.ports_of_failure (o := ⟨.failure k, d⟩) rfl]
  exact ⟨exec_next_eq_finish_outcome h ho, rfl, k.status_ne_zero, rfl, rfl, rfl, rfl, rfl, rfl, rfl⟩

end Sys2Proof.Machine

/-! SUPPORT. Reset and hazards (70_reset_and_hazards.md): what an outcome depends on (R174). -/

namespace Sys2Proof.Machine

/-! ## The end of a computation, from two states -/

/-- The outcome handed to the caller is the computation's; the state only receives it. -/
theorem conclude_eq_finish_congr (x : Tx (Result × Diag)) (s s' : State) (o : Response) :
    conclude x s = .next (s.finish o) ↔ conclude x s' = .next (s'.finish o) := by
  match x with
  | .ok (r, d) => simp [State.finish_inj]
  | .error (.failure k d) => simp [State.finish_inj]
  | .error (.refusal r) => simp

theorem conclude_eq_refused_congr (x : Tx (Result × Diag)) (s s' : State) (r : Refusal) :
    conclude x s = .refused r ↔ conclude x s' = .refused r := by
  match x with
  | .ok (_, _) => simp
  | .error (.failure _ _) => simp
  | .error (.refusal _) => simp

/-! ## The obligation -/

/-- Settles O20: states with the same constants run the same computation, and how it ends is no matter of
the state. -/
theorem outcomeDependsOnOperandsAndConstantsOnly :
    Obligations.OutcomeDependsOnOperandsAndConstantsOnly := by
  intro i s s' hg hh hs
  obtain ⟨x, hexec, hexec'⟩ := exec_congr i hg hh hs
  rw [hexec, hexec']
  exact ⟨conclude_eq_finish_congr x s s', conclude_eq_refused_congr x s s'⟩

end Sys2Proof.Machine

/-! SUPPORT. Decode and encode (30_encoding.md): all that `decode` answers, and the bytes of a script line. -/

namespace Sys2Proof

/-! ## All that `decode` answers -/

/-- The port values stand for the operands of an operation, read from the ports that its rule lists (R52). -/
def InPorts.Carries (p : InPorts) : Instr → Prop
  | .matConstruct rows => p.rowsIn.toRows = .ok rows
  | .matRows a         => p.a.toMatrix = .ok a
  | .matCols a         => p.a.toMatrix = .ok a
  | .matGet a r c      => p.a.toMatrix = .ok a ∧ p.r = r ∧ p.c = c
  | .matSet a r c v    => p.a.toMatrix = .ok a ∧ p.r = r ∧ p.c = c ∧ p.v = v
  | .matGetRow a r     => p.a.toMatrix = .ok a ∧ p.r = r
  | .matMul a b        => p.a.toMatrix = .ok a ∧ p.b.toMatrix = .ok b
  | .matAdd a b        => p.a.toMatrix = .ok a ∧ p.b.toMatrix = .ok b
  | .matEq a b         => p.a.toMatrix = .ok a ∧ p.b.toMatrix = .ok b
  | .bpUnpack value n  => p.value = value ∧ p.n = n
  | .bpPack seq        => p.seqIn.toPackOperand = seq
  | .synLookup index   => p.index = index
  | .hamEncode src     => p.srcIn = src
  | .hamDecode cw      => p.cwIn = cw

theorem decode_of_carries {p : InPorts} {i : Instr} (h : p.Carries i) : decode i.cmd p = .ok i := by
  cases i <;> simp only [InPorts.Carries] at h <;> simp [decode, Instr.cmd, h]

/-- An operation is decoded exactly from its own code and ports that carry its operands. -/
theorem decode_eq_ok_iff {cmd : Byte} {p : InPorts} {i : Instr} :
    decode cmd p = .ok i ↔ cmd = i.cmd ∧ p.Carries i := by
  refine ⟨fun h => ?_, fun ⟨hcmd, hp⟩ => hcmd ▸ decode_of_carries hp⟩
  have code_eq {c : Byte} (hc : cmd.toNat = c.toNat) : cmd = c := BitVec.eq_of_toNat_eq hc
  unfold decode at h
  split at h <;> rename_i hcmd
  case h_15 => cases h
  case h_10 | h_11 | h_12 | h_13 | h_14 =>
    cases h
    exact ⟨code_eq hcmd, by simp [InPorts.Carries]⟩
  case h_7 | h_8 | h_9 =>
    obtain ⟨a, ha, h⟩ := except_bind_eq_ok.1 h
    obtain ⟨b, hb, h⟩ := except_bind_eq_ok.1 h
    cases h
    exact ⟨code_eq hcmd, ha, hb⟩
  all_goals
    obtain ⟨a, ha, h⟩ := except_bind_eq_ok.1 h
    cases h
    exact ⟨code_eq hcmd, by simp [InPorts.Carries, ha]⟩

theorem error_of_ne_ok {ε α : Type} {x : Except ε α} (h : ∀ a, x ≠ .ok a) : ∃ e, x = .error e := by
  cases x with
  | error e => exact ⟨e, rfl⟩
  | ok a => exact absurd rfl (h a)

theorem decode_error_of_not_carries {cmd : Byte} {p : InPorts} (h : ∀ i : Instr, cmd = i.cmd → ¬ p.Carries i) :
    ∃ e, decode cmd p = .error e :=
  error_of_ne_ok fun i hok => by
    obtain ⟨hcmd, hp⟩ := decode_eq_ok_iff.1 hok
    exact h i hcmd hp

/-- Ports carry only operands that are values of their bundles (R49, R50, R56). -/
theorem InPorts.Carries.wf {p : InPorts} {i : Instr} (h : p.Carries i) : i.WellFormed := by
  cases i with
  | matConstruct rows => exact RowsWires.toRows_within h
  | matRows a => exact MatWires.toMatrix_wf h
  | matCols a => exact MatWires.toMatrix_wf h
  | matGet a r c => exact MatWires.toMatrix_wf h.1
  | matSet a r c v => exact MatWires.toMatrix_wf h.1
  | matGetRow a r => exact MatWires.toMatrix_wf h.1
  | matMul a b | matAdd a b | matEq a b =>
    exact Bool.and_eq_true_iff.2 ⟨MatWires.toMatrix_wf h.1, MatWires.toMatrix_wf h.2⟩
  | bpPack seq => exact h ▸ SeqWires.toPackOperand_wf _
  | bpUnpack _ _ | synLookup _ | hamEncode _ | hamDecode _ => rfl

/-- What an operation's encoding lays on the ports are its operands. -/
theorem Instr.ports_carries {i : Instr} (h : i.WellFormed) : i.ports.Carries i := by
  cases i with
  | matConstruct rows => exact RowsWires.toRows_ofRows h
  | matRows a | matCols a => exact MatWires.toMatrix_ofMatrix h
  | matGet a r c => exact ⟨MatWires.toMatrix_ofMatrix h, rfl, rfl⟩
  | matSet a r c v => exact ⟨MatWires.toMatrix_ofMatrix h, rfl, rfl, rfl⟩
  | matGetRow a r => exact ⟨MatWires.toMatrix_ofMatrix h, rfl⟩
  | matMul a b | matAdd a b | matEq a b =>
    obtain ⟨ha, hb⟩ := Bool.and_eq_true_iff.1 h
    exact ⟨MatWires.toMatrix_ofMatrix ha, MatWires.toMatrix_ofMatrix hb⟩
  | bpUnpack value n => exact ⟨rfl, rfl⟩
  | bpPack seq => exact PackOperand.toPackOperand_wires h
  | synLookup _ | hamEncode _ | hamDecode _ => rfl

/-! ## The bytes of a script line (R59) -/

/-- The line of an operation reads back as the transaction that presents it. -/
theorem readRequest_lineBytes (i : Instr) (rest : List Byte) :
    readRequest (i.lineBytes ++ rest) = .ok (encode i, rest) := by
  cases i <;> simp [readRequest, Instr.lineBytes, Instr.cmd, Instr.ports, encode, readByte, readRows_toBytes,
    readMat_toBytes, readSeq_toBytes, readIndex_setWidth, List.append_assoc]

end Sys2Proof

namespace Sys2Proof.Machine

/-! ## The obligations -/

/-- Settles O1: the encoder lays the operands on the ports, and `decode` reads them there. -/
theorem decodeOfEncodeIsIdentity : Obligations.DecodeOfEncodeIsIdentity := fun _ hi =>
  decode_of_carries (Instr.ports_carries hi)

/-- Settles O2: the line reads back as the operation's transaction, which decodes to the operation. -/
theorem lineBytesDecodeBack : Obligations.LineBytesDecodeBack := by
  intro i rest hi
  simp [decodeLine, readRequest_lineBytes, decodeOfEncodeIsIdentity i hi]

/-- Settles O3: by all that `decode` answers. -/
theorem decodedOperationsAreWellFormed : Obligations.DecodedOperationsAreWellFormed := by
  intro cmd p i h
  obtain ⟨rfl, hp⟩ := decode_eq_ok_iff.1 h
  exact ⟨hp.wf, rfl⟩

end Sys2Proof.Machine

/-! SUPPORT. The `MAT` and `ROWS` bundles and the reserved values (30_encoding.md sections 2 and 5). -/

namespace Sys2Proof

/-! ## The `MAT` bundle (R50) -/

/-- The matrix on a `MAT` bundle of a legal shape, element by element. -/
theorem MatWires.toMatrix_of_shape {w : MatWires} (hr : 1 ≤ w.rows.toNat ∧ w.rows.toNat ≤ 8)
    (hc : 1 ≤ w.cols.toNat ∧ w.cols.toNat ≤ 8) : ∃ m, w.toMatrix = .ok m ∧ m.rows = w.rows.toNat ∧
      m.cols = w.cols.toNat ∧ ∀ r c : Fin 8, r.val < m.rows → c.val < m.cols → m.bit r c = w.e[r][c] := by
  refine ⟨_, if_pos ⟨hr.1, hr.2, hc⟩, rfl, rfl, fun r c hr' hc' => ?_⟩
  rw [Matrix.bit_ofFn_of_lt (m := w.rows.toNat) (n := w.cols.toNat) _ hr' hc']
  simp

theorem MatWires.toMatrix_badShape {w : MatWires}
    (h : ¬ ((1 ≤ w.rows.toNat ∧ w.rows.toNat ≤ 8) ∧ (1 ≤ w.cols.toNat ∧ w.cols.toNat ≤ 8))) :
    w.toMatrix = .error (.notAMatrix w.rows w.cols) :=
  if_neg fun hs => h ⟨⟨hs.1, hs.2.1⟩, hs.2.2⟩

theorem MatWires.toMatrix_ne_ok {w : MatWires} (h : w.rows.toNat = 0 ∨ 8 < w.rows.toNat ∨
    w.cols.toNat = 0 ∨ 8 < w.cols.toNat) (m : Matrix) : w.toMatrix ≠ .ok m := by
  rw [MatWires.toMatrix_badShape (by omega)]
  exact nofun

theorem MatWires.ofMatrix_wire (m : Matrix) (r c : Fin 8) : (MatWires.ofMatrix m).e[r][c] =
    (decide (r.val < m.rows) && decide (c.val < m.cols) && m.bit r c) := by
  simp [MatWires.ofMatrix]

/-! ## The `ROWS` bundle (R50, R56) -/

/-- All that a `ROWS` bundle can give, by its wires. -/
theorem RowsWires.toRows_eq_ok_iff_wires {w : RowsWires} {rows : List (List Bool)} : w.toRows = .ok rows ↔
    w.count.toNat ≤ 8 ∧ (∀ i : Fin 8, w.row[i].present = true ∧ w.row[i].len.toNat ≤ 8) ∧
      rows = (w.row.toList.take w.count.toNat).map SeqWires.elements := by
  have hall : (∀ b ∈ w.row.toList, b.present = true ∧ b.len.toNat ≤ 8) ↔
      ∀ i : Fin 8, w.row[i].present = true ∧ w.row[i].len.toNat ≤ 8 := by
    simp only [Vector.mem_toList_iff, Vector.mem_iff_getElem, Fin.forall_iff]
    exact ⟨fun h i hi => h _ ⟨i, hi, rfl⟩, fun h b ⟨i, hi, hb⟩ => hb ▸ h i hi⟩
  rw [RowsWires.toRows_eq_ok_iff, hall]

theorem RowsWires.toRows_tooMany {w : RowsWires} (h : 8 < w.count.toNat) :
    w.toRows = .error (.tooManyRows w.count) := if_pos h

theorem RowsWires.toRows_badRow {w : RowsWires} {i : Fin 8}
    (h : w.row[i].present = false ∨ 8 < w.row[i].len.toNat) (rows : List (List Bool)) :
    w.toRows ≠ .ok rows := by
  intro hok
  obtain ⟨-, hall, -⟩ := RowsWires.toRows_eq_ok_iff_wires.1 hok
  obtain ⟨hp, hl⟩ := hall i
  obtain hp' | hl' := h
  · cases hp'.symm.trans hp
  · omega

/-- Row i of a legal `ROWS` bundle is what row bundle i carries. -/
theorem RowsWires.getD_toRows {w : RowsWires} {rows : List (List Bool)} (h : w.toRows = .ok rows) {i : Fin 8}
    (hi : i.val < w.count.toNat) : rows.getD i [] = w.row[i].elements := by
  obtain ⟨-, -, rfl⟩ := RowsWires.toRows_eq_ok_iff_wires.1 h
  simp [hi]

theorem RowsWires.length_toRows {w : RowsWires} {rows : List (List Bool)} (h : w.toRows = .ok rows) :
    rows.length = w.count.toNat := by
  obtain ⟨hcount, -, rfl⟩ := RowsWires.toRows_eq_ok_iff_wires.1 h
  simpa using hcount

/-- The bundles that an operation lists are legal: `MAT` on port a for codes 1 to 8 and on port b for codes 6
to 8, `ROWS` for code 0 (R52, R56). -/
theorem InPorts.Carries.bundles_ok {p : InPorts} {i : Instr} (h : p.Carries i) :
    (1 ≤ i.cmd.toNat ∧ i.cmd.toNat ≤ 8 → ∃ a, p.a.toMatrix = .ok a) ∧
    (6 ≤ i.cmd.toNat ∧ i.cmd.toNat ≤ 8 → ∃ b, p.b.toMatrix = .ok b) ∧
    (i.cmd = 0 → ∃ rows, p.rowsIn.toRows = .ok rows) := by
  cases i with
  | matConstruct rows => exact ⟨by simp [Instr.cmd], by simp [Instr.cmd], fun _ => ⟨rows, h⟩⟩
  | matRows a | matCols a => exact ⟨fun _ => ⟨a, h⟩, by simp [Instr.cmd], by simp [Instr.cmd]⟩
  | matGet a _ _ | matSet a _ _ _ | matGetRow a _ =>
    exact ⟨fun _ => ⟨a, h.1⟩, by simp [Instr.cmd], by simp [Instr.cmd]⟩
  | matMul a b | matAdd a b | matEq a b => exact ⟨fun _ => ⟨a, h.1⟩, fun _ => ⟨b, h.2⟩, by simp [Instr.cmd]⟩
  | bpUnpack _ _ | bpPack _ | synLookup _ | hamEncode _ | hamDecode _ =>
    exact ⟨by simp [Instr.cmd], by simp [Instr.cmd], by simp [Instr.cmd]⟩

end Sys2Proof

namespace Sys2Proof.Machine

theorem FailureKind.status_le (k : FailureKind) : k.status.toNat ≤ 7 := by cases k <;> decide

theorem Ending.status_le (e : Ending) : e.status.toNat ≤ 7 := by
  cases e with
  | success r => exact Nat.zero_le 7
  | failure k => exact k.status_le

theorem Diag.code_le (d : Diag) : d.code.toNat ≤ 2 := by cases d <;> decide

/-- A presented transaction from which no operation can be decoded is refused (R55, R56). -/
theorem step_refused_of_not_carries {s : State} {q : Request} {rest : List Request}
    (hs : s.requests = q :: rest) (h : ∀ i : Instr, q.cmd = i.cmd → ¬ q.ports.Carries i) :
    ∃ e, step s = .refused (.undecodable e) := by
  obtain ⟨e, he⟩ := decode_error_of_not_carries h
  exact ⟨e, step_of_decode_error hs he⟩

/-! ## The obligations -/

/-- Settles O6: inputs and outputs wire by wire; a `ROWS` bundle by all that it can give. -/
theorem matrixBundleRule : Obligations.MatrixBundleRule := by
  refine ⟨fun w => ⟨fun ⟨hr, hc⟩ => ?_, MatWires.toMatrix_badShape⟩, fun m d hm => ?_,
    fun w => ⟨RowsWires.toRows_tooMany, fun ⟨i, hi⟩ => error_of_ne_ok (RowsWires.toRows_badRow hi),
      fun hcount hall => ?_⟩⟩
  · obtain ⟨m, hm, hrows, hcols, hbit⟩ := MatWires.toMatrix_of_shape hr hc
    exact ⟨m, hm, MatWires.toMatrix_wf hm, hrows, hcols, hbit⟩
  · obtain ⟨⟨-, hr⟩, ⟨-, hc⟩, -, -⟩ := (Matrix.wf_iff m).1 hm
    exact ⟨MatWires.ofMatrix m, rfl, rfl, toNat_ofNat4 hr, toNat_ofNat4 hc, MatWires.ofMatrix_wire m⟩
  · have hrows := RowsWires.toRows_eq_ok_iff_wires.2 ⟨hcount, hall, rfl⟩
    refine ⟨_, hrows, RowsWires.length_toRows hrows, fun i hi => ?_⟩
    rw [RowsWires.getD_toRows hrows hi]
    refine ⟨w.row[i].length_elements, fun j hj => ?_⟩
    rw [w.row[i].getD_elements hj, wireAt_fin]

/-- Settles O8: the outputs by their codes; an operation is decoded only from legal bundles. -/
theorem reservedValuesRule : Obligations.ReservedValuesRule := by
  refine ⟨fun o => ⟨?_, ?_⟩, fun s q rest hs => ⟨fun hcmd ha => ?_, fun hcmd hb => ?_, fun hcmd hrows => ?_⟩,
    fun p => rfl⟩
  · rw [o.ports_status]
    exact o.ending.status_le
  · rw [o.ports_diag]
    exact o.diag.code_le
  · refine step_refused_of_not_carries hs fun i hi hc => ?_
    obtain ⟨hok, -, -⟩ := hc.bundles_ok
    obtain ⟨a, ha'⟩ := hok (hi ▸ hcmd)
    exact MatWires.toMatrix_ne_ok ha a ha'
  · refine step_refused_of_not_carries hs fun i hi hc => ?_
    obtain ⟨-, hok, -⟩ := hc.bundles_ok
    obtain ⟨b, hb'⟩ := hok (hi ▸ hcmd)
    exact MatWires.toMatrix_ne_ok hb b hb'
  · refine step_refused_of_not_carries hs fun i hi hc => ?_
    obtain ⟨-, -, hok⟩ := hc.bundles_ok
    obtain ⟨rows, hok⟩ := hok (hi ▸ hcmd)
    obtain hcount | ⟨j, hj⟩ := hrows
    · rw [RowsWires.toRows_tooMany hcount] at hok
      cases hok
    · exact RowsWires.toRows_badRow (.inr hj) rows hok

/-- Settles O10: each arm of `decode` reads only the ports of its operation. -/
theorem unlistedInputsAreIgnored : Obligations.UnlistedInputsAreIgnored := by
  intro p p'
  refine ⟨?_, ?_, ?_, ?_, ?_, ?_, ?_, ?_, ?_, ?_, ?_⟩ <;> intros <;> simp [decode, *]

/-- Settles O11: each line is the line of its operation. -/
theorem specScriptLinesDecode : Obligations.SpecScriptLinesDecode :=
  ⟨lineBytesDecodeBack (.hamEncode 0x0C) [] rfl, lineBytesDecodeBack (.hamDecode 0xCC) [] rfl,
    lineBytesDecodeBack (.bpUnpack 0x0C 4) [] rfl, lineBytesDecodeBack (.synLookup 1) [] rfl,
    lineBytesDecodeBack (.hamEncode 5) [0x40, 0x15] rfl,
    lineBytesDecodeBack (.matGetRow ⟨1, 4, [[false, false, false, true]]⟩ 0) [] rfl⟩

end Sys2Proof.Machine

/-! SUPPORT. Every operation completes, and what follows for a step and a run (00_scope.md section 3,
20_memory.md sections 3 and 4, 60_exceptions.md section 7, 70_reset_and_hazards.md section 4). -/

namespace Sys2Proof.Machine

/-! ## Each function has a value or raises one kind of failure -/

theorem ite_raise_cases {α : Type} (c : Prop) [Decidable c] (k : FailureKind) (a : α) :
    (if c then raise k else .ok a : Tx α) = raise k ∨ ∃ b, (if c then raise k else .ok a : Tx α) = .ok b := by
  by_cases h : c
  · exact .inl (if_pos h)
  · exact .inr ⟨a, if_neg h⟩

theorem construct_cases (rows : List (List Bool)) :
    construct rows = raise .invalidShape ∨ ∃ m, construct rows = .ok m := by
  cases rows with
  | nil => exact .inl rfl
  | cons first rest =>
    rw [construct_cons]
    split_ifs
    · exact .inl rfl
    · exact .inl rfl
    · exact .inr ⟨_, rfl⟩

theorem getElement_cases (m : Matrix) (r c : Byte) :
    getElement m r c = raise .indexOutOfRange ∨ ∃ x, getElement m r c = .ok x := ite_raise_cases _ _ _

theorem setElement_cases (m : Matrix) (r c v : Byte) : setElement m r c v = raise .indexOutOfRange ∨
    setElement m r c v = raise .invalidValue ∨ ∃ m', setElement m r c v = .ok m' := by
  unfold setElement
  split_ifs
  · exact .inl rfl
  · exact .inr (.inl rfl)
  · exact .inr (.inr ⟨_, rfl⟩)

theorem getRow_cases (m : Matrix) (r : Byte) :
    getRow m r = raise .indexOutOfRange ∨ ∃ b, getRow m r = .ok b := ite_raise_cases _ _ _

theorem mul_cases (a b : Matrix) : mul a b = raise .dimensionMismatch ∨ ∃ m, mul a b = .ok m :=
  ite_raise_cases _ _ _

theorem add_cases (a b : Matrix) : add a b = raise .dimensionMismatch ∨ ∃ m, add a b = .ok m :=
  ite_raise_cases _ _ _

theorem unpack_cases (value n : Byte) :
    unpack value n = raise .invalidBitCount ∨ ∃ b, unpack value n = .ok b := ite_raise_cases _ _ _

theorem setElement_wf {a m : Matrix} {r c v : Byte} (ha : a.wf = true) (h : setElement a r c v = .ok m) :
    m.wf = true := by
  obtain ⟨hr, hc, -, -⟩ := (Matrix.wf_iff a).1 ha
  unfold setElement at h
  split_ifs at h
  · cases h
  · cases h
  · cases h
    exact Matrix.wf_ofFn _ hr hc

theorem getRow_length {a : Matrix} {r : Byte} {b : List Bool} (h : getRow a r = .ok b) :
    b.length = a.cols := by
  unfold getRow at h
  split_ifs at h
  · cases h
  · cases h
    exact a.length_rowBits _

theorem unpack_length {value n : Byte} {b : List Bool} (h : unpack value n = .ok b) :
    b.length = n.toNat ∧ n.toNat ≤ 8 := by
  unfold unpack at h
  split_ifs at h with hn
  · cases h
  · cases h
    exact ⟨by simp, Nat.le_of_not_lt hn⟩

/-! ## Every operation on operands that the ports can carry -/

/-- An operation answers a next state with one legal outcome (R5, R150). -/
def Completes (i : Instr) (s : State) : Prop := ∃ o, exec i s = .next (s.finish o) ∧ o.wf = true

theorem Completes.success {i : Instr} {s : State} {r : Result}
    (h : exec i s = .next (s.finish ⟨.success r, .none⟩)) (hr : r.wf = true) : Completes i s :=
  ⟨_, h, hr⟩

/-- A failure of any kind but UncorrectableError comes with no event (R157). -/
theorem Completes.failure {i : Instr} {s : State} {k : FailureKind} (hk : k ≠ .uncorrectableError)
    (h : exec i s = .next (s.finish ⟨.failure k, .none⟩)) : Completes i s :=
  ⟨_, h, by
    cases k
    case uncorrectableError => exact absurd rfl hk
    all_goals rfl⟩

theorem weight_trichotomy (m : Matrix) : weight m = 0 ∨ weight m = 1 ∨ 2 ≤ weight m := by omega

section
variable {s : State} (ha : Admissible s)
include ha

/-- The three ends of Decode (R134, R135). -/
theorem hamDecode_cases (cw : Byte) :
    (∃ nib, exec (.hamDecode cw) s = .next (s.finish ⟨.success (.nibble nib), .none⟩)) ∨
    (∃ nib, exec (.hamDecode cw) s = .next (s.finish ⟨.success (.nibble nib), .oneBit⟩)) ∨
    exec (.hamDecode cw) s = .next (s.finish ⟨.failure .uncorrectableError, .twoBit⟩) := by
  obtain ⟨z, e, -, -, -, hnone, hone, htwo⟩ := hamDecode_spec ha cw
  obtain hw | hw | hw := weight_trichotomy (s.memReadSyn z)
  · exact .inl ⟨_, hnone hw⟩
  · exact .inr (.inl ⟨_, hone hw⟩)
  · exact .inr (.inr (htwo hw))

theorem synLookup_wf (z : BitVec 4) : (Result.pattern (s.memReadSyn z)).wf = true := by
  obtain ⟨hwf, hr, hc⟩ := ha.synShape z
  simp [Result.wf, hwf, hr, hc]

theorem exec_completes {i : Instr} (hi : i.WellFormed) : Completes i s := by
  cases i with
  | matConstruct rows =>
    obtain h | ⟨m, h⟩ := construct_cases rows
    · exact .failure (by decide) (exec_matConstruct_of_raise s hi h)
    · exact .success (exec_matConstruct_of_ok s hi h) (construct_wf hi h)
  | matRows a => exact .success (exec_matRows_eq s hi) rfl
  | matCols a => exact .success (exec_matCols_eq s hi) rfl
  | matGet a r c =>
    obtain h | ⟨x, h⟩ := getElement_cases a r c
    · exact .failure (by decide) (exec_matGet_of_raise s hi h)
    · exact .success (exec_matGet_of_ok s hi h) rfl
  | matSet a r c v =>
    obtain h | h | ⟨m, h⟩ := setElement_cases a r c v
    · exact .failure (by decide) (exec_matSet_of_raise s hi h)
    · exact .failure (by decide) (exec_matSet_of_raise s hi h)
    · exact .success (exec_matSet_of_ok s hi h) (setElement_wf hi h)
  | matGetRow a r =>
    obtain h | ⟨b, h⟩ := getRow_cases a r
    · exact .failure (by decide) (exec_matGetRow_of_raise s hi h)
    · obtain ⟨-, ⟨-, hcols⟩, -, -⟩ := (Matrix.wf_iff a).1 hi
      exact .success (exec_matGetRow_of_ok s hi h) (decide_eq_true (getRow_length h ▸ hcols))
  | matMul a b =>
    obtain ⟨hwa, hwb⟩ := Bool.and_eq_true_iff.1 hi
    obtain h | ⟨m, h⟩ := mul_cases a b
    · exact .failure (by decide) (exec_matMul_of_raise s hwa hwb h)
    · exact .success (exec_matMul_of_ok s hwa hwb h) (mul_wf hwa hwb h)
  | matAdd a b =>
    obtain ⟨hwa, hwb⟩ := Bool.and_eq_true_iff.1 hi
    obtain h | ⟨m, h⟩ := add_cases a b
    · exact .failure (by decide) (exec_matAdd_of_raise s hwa hwb h)
    · exact .success (exec_matAdd_of_ok s hwa hwb h) (add_wf hwa h)
  | matEq a b =>
    obtain ⟨hwa, hwb⟩ := Bool.and_eq_true_iff.1 hi
    exact .success (exec_matEq_eq s hwa hwb) rfl
  | bpUnpack value n =>
    obtain h | ⟨b, h⟩ := unpack_cases value n
    · exact .failure (by decide) (exec_bpUnpack_of_raise s h)
    · obtain ⟨hlen, hn⟩ := unpack_length h
      exact .success (exec_bpUnpack_of_ok s h) (decide_eq_true (hlen ▸ hn))
  | bpPack seq =>
    cases seq with
    | absent => exact .failure (by decide) (exec_bpPack_of_raise s (k := .invalidLength) rfl)
    | bits b => exact .success (exec_bpPack_of_ok s (pack_eq_ok (of_decide_eq_true hi))) rfl
    | tooLong len =>
      exact .failure (by decide) (exec_bpPack_of_raise s (packOperand_tooLong (of_decide_eq_true hi)))
  | synLookup z => exact .success (exec_synLookup z s) (synLookup_wf ha z)
  | hamEncode src =>
    obtain ⟨cw, hcw, -⟩ := encodeWord_bits ha src
    exact .success (exec_hamEncode_of_ok s hcw) rfl
  | hamDecode cw =>
    obtain ⟨nib, h⟩ | ⟨nib, h⟩ | h := hamDecode_cases ha cw
    · exact .success h rfl
    · exact ⟨_, h, rfl⟩
    · exact ⟨_, h, rfl⟩

end

/-! ## A step on a decodable transaction -/

theorem step_of_decode_ok {s : State} {q : Request} {rest : List Request} {i : Instr}
    (hs : s.requests = q :: rest) (h : decode q.cmd q.ports = .ok i) : step s = exec i s.served := by
  simp only [step, hs, h]

theorem step_of_no_request {s : State} (hs : s.requests = []) : step s = .refused .noTransaction := by
  simp only [step, hs]

theorem State.served_eq {s : State} {q : Request} {rest : List Request} (hs : s.requests = q :: rest) :
    s.served = { s with requests := rest } := by
  rw [State.served, hs, List.tail_cons]

/-- A state that meets the invariant serves every transaction that has a meaning (R178). -/
theorem step_of_meaningful {s : State} {q : Request} {rest : List Request} (ha : Admissible s)
    (hs : s.requests = q :: rest) (hq : Meaningful q) :
    ∃ o, step s = .next (s.served.finish o) ∧ o.wf = true := by
  obtain ⟨i, hi⟩ := hq
  obtain ⟨hwf, -⟩ := decodedOperationsAreWellFormed q.cmd q.ports i hi
  obtain ⟨o, ho, howf⟩ := exec_completes ha.served hwf
  exact ⟨o, by rw [step_of_decode_ok hs hi, ho], howf⟩

/-- One transaction presented alone, on the constants of a state. -/
def State.alone (s : State) (q : Request) : State := { s with requests := [q], outcome := none }

/-- The oldest transaction gets the outcome that it gets alone (R174). -/
theorem step_alone {s t : State} {q : Request} {after : List Request} (hs : s.requests = q :: after)
    (h : step s = .next t) : ∃ u, step (s.alone q) = .next u ∧ u.outcome = t.outcome := by
  obtain ⟨q', rest, i, hs', hi, hexec⟩ := step_next h
  cases hs.symm.trans hs'
  obtain ⟨o, rfl⟩ := exec_next hexec
  have hcongr := outcomeDependsOnOperandsAndConstantsOnly i s.served (s.alone q).served rfl rfl rfl
  exact ⟨_, (step_of_decode_ok (s := s.alone q) rfl hi).trans ((hcongr.1 o).1 hexec), rfl⟩

/-! ## Runs -/

theorem step_outcome {s t : State} (h : step s = .next t) : ∃ o, t.outcome = some o := by
  obtain ⟨o, rfl⟩ := step_next_eq_finish h
  exact ⟨o, rfl⟩

theorem run_succ_outcome {n : Nat} {s t : State} (h : Host.Core.run core (n + 1) s = .next t) :
    ∃ o, t.outcome = some o := by
  obtain ⟨u, hstep, hrun⟩ := run_succ_eq_next.1 h
  exact run_keeps (P := fun s => ∃ o, s.outcome = some o) (fun _ _ _ => step_outcome) (step_outcome hstep) hrun

/-- A run serves the presented transactions one after another, if each has a meaning (R168, R178). -/
theorem run_of_meaningful {s : State} {qs : List Request} (ha : Admissible s) (hs : s.requests = qs)
    (hq : ∀ q ∈ qs, Meaningful q) : ∃ t, Host.Core.run core qs.length s = .next t ∧ t.requests = [] := by
  induction qs generalizing s with
  | nil => exact ⟨s, rfl, hs⟩
  | cons q qs ih =>
    obtain ⟨hq, hqs⟩ := List.forall_mem_cons.1 hq
    obtain ⟨o, hstep, -⟩ := step_of_meaningful ha hs hq
    obtain ⟨t, hrun, ht⟩ := ih (s := s.served.finish o) (ha.served.finish o) (by simp [hs]) hqs
    exact ⟨t, run_succ_eq_next.2 ⟨_, hstep, hrun⟩, ht⟩

/-! ## The obligations -/

/-- Settles O12: by what is decoded from the oldest transaction. -/
theorem stepRunsDecodedOperation : Obligations.StepRunsDecodedOperation := fun _ =>
  ⟨fun _ _ hs => ⟨fun _ hi => State.served_eq hs ▸ step_of_decode_ok hs hi,
    fun _ he => step_of_decode_error hs he⟩, step_of_no_request⟩

/-- Settles O26: function by function. -/
theorem everyPresentableOperationCompletes : Obligations.EveryPresentableOperationCompletes :=
  fun _ _ ha hi => exec_completes ha hi

/-- Settles O15: a step serves a transaction that has a meaning, whose outcome is legal. -/
theorem stepKeepsInvariant : Obligations.StepKeepsInvariant := by
  intro s t ⟨ha, _⟩ h
  obtain ⟨q, rest, i, hs, hi, -⟩ := step_next h
  obtain ⟨o, ho, howf⟩ := step_of_meaningful ha hs ⟨i, hi⟩
  cases h.symm.trans ho
  exact ⟨ha.served.finish o, fun o' ho' => by cases ho'; exact howf⟩

/-- Settles O16: the literals meet R15, and reset holds no outcome. -/
theorem resetMeetsInvariant : Obligations.ResetMeetsInvariant :=
  ⟨resetConstantsAreAdmissible, fun _ ho => nomatch ho⟩

/-- Settles O19: the state differs from the first one only in its outcome, on which no operation depends. -/
theorem repeatedTransactionChangesNothing : Obligations.RepeatedTransactionChangesNothing := by
  intro i s t h
  obtain ⟨o, rfl⟩ := exec_next h
  exact ((outcomeDependsOnOperandsAndConstantsOnly i s (s.finish o) rfl rfl rfl).1 o).1 h

/-- Settles O21: by induction on the transactions before, none of which writes a constant. -/
theorem earlierTransactionsLeaveNoTrace : Obligations.EarlierTransactionsLeaveNoTrace := by
  intro s t before after q hs hrun
  induction before generalizing s with
  | nil =>
    obtain ⟨u, hstep, hrun⟩ := run_succ_eq_next.1 hrun
    cases hrun
    obtain ⟨v, hv, hout⟩ := step_alone hs hstep
    obtain ⟨o, rfl⟩ := step_next_eq_finish hstep
    exact ⟨v, hv, hout, by simp [hs]⟩
  | cons p before ih =>
    obtain ⟨u, hstep, hrun⟩ := run_succ_eq_next.1 hrun
    obtain ⟨o, rfl⟩ := step_next_eq_finish hstep
    exact ih (s.served.finish o) (by simp [hs]) hrun

/-- Settles O27: each transaction is served in one step, and every step keeps the invariant. -/
theorem meaningfulScriptIsServedToItsEnd : Obligations.MeaningfulScriptIsServedToItsEnd := by
  intro s hinv hq
  obtain ⟨t, hrun, ht⟩ := run_of_meaningful hinv.1 rfl hq
  refine ⟨t, hrun, ht, run_keeps stepKeepsInvariant hinv hrun, fun hne => ?_⟩
  obtain ⟨q, qs, hs⟩ := List.exists_cons_of_ne_nil hne
  rw [hs] at hrun
  exact run_succ_outcome hrun

/-- Settles O24: by the three ends of Decode. -/
theorem eventTwoExactlyWhenUncorrectable : Obligations.EventTwoExactlyWhenUncorrectable := by
  intro s t cw o ha h ho
  obtain ⟨nib, hexec⟩ | ⟨nib, hexec⟩ | hexec := hamDecode_cases ha cw <;>
    obtain rfl := outcome_eq_of_exec hexec h ho <;> simp [Diag.code]

end Sys2Proof.Machine

/-! SUPPORT. The result port of each operation (the port lists R84, R105, R114, R126, R142). -/

namespace Sys2Proof.Machine

/-! ## What a successful computation answers -/

/-- An operation that ends in success without an event had a value to answer. -/
theorem result_of_bind {α : Type} {x : Tx α} {f : α → Result} {r : Result} {d : Diag}
    (h : (x >>= fun a => pure (f a, Diag.none)) = .ok (r, d)) : ∃ a, x = .ok a ∧ r = f a ∧ d = .none := by
  obtain ⟨a, ha, h⟩ := except_bind_eq_ok.1 h
  cases h
  exact ⟨a, ha, rfl, rfl⟩

/-- The same behind the check of an operand. -/
theorem result_of_operand_bind {α : Type} {c : Tx Unit} {x : Tx α} {f : α → Result} {r : Result} {d : Diag}
    (h : (c >>= fun _ => x >>= fun a => pure (f a, Diag.none)) = .ok (r, d)) :
    ∃ a, x = .ok a ∧ r = f a ∧ d = .none := by
  obtain ⟨_, -, h⟩ := except_bind_eq_ok.1 h
  exact result_of_bind h

/-- A bit of a scalar port leaves bits 7 to 1 zero (R84). -/
theorem bitByte_high (x : Bool) : (bitByte x).extractLsb' 1 7 = 0 := by cases x <;> decide

/-- Decode goes on only with a capped count of 0 or 1 (R134). -/
theorem classify_diag {m : Matrix} {d : Diag} (h : classify m = .ok d) : d.code = 0 ∨ d.code = 1 := by
  obtain hw | hw | hw := weight_trichotomy m
  · cases (classify_zero hw).symm.trans h
    exact .inl rfl
  · cases (classify_one hw).symm.trans h
    exact .inr rfl
  · cases (classify_two hw).symm.trans h

theorem decodeWord_diag {s : State} {cw : Byte} {nib : BitVec 4} {d : Diag}
    (h : decodeWord s cw = .ok (nib, d)) : d.code = 0 ∨ d.code = 1 := by
  obtain ⟨_, -, h⟩ := except_bind_eq_ok.1 h
  obtain ⟨_, -, h⟩ := except_bind_eq_ok.1 h
  obtain ⟨_, hd, h⟩ := except_bind_eq_ok.1 h
  obtain ⟨_, -, h⟩ := except_bind_eq_ok.1 h
  cases h
  exact classify_diag hd

/-! ## The obligation -/

/-- Settles O55: each operation's own result, which `Response.ports` lays on its port. -/
theorem resultPortOfEachOperation : Obligations.ResultPortOfEachOperation := by
  intro i s t r d h ho
  cases i with
  | matConstruct rows =>
    obtain ⟨m, -, rfl, rfl⟩ := result_of_operand_bind (conclude_eq_success h ho)
    exact ⟨m, rfl, rfl⟩
  | matRows a | matCols a =>
    obtain ⟨_, -, rfl, rfl⟩ := result_of_bind (conclude_eq_success h ho)
    exact ⟨_, rfl, rfl⟩
  | matGet a r c =>
    obtain ⟨x, -, rfl, rfl⟩ := result_of_operand_bind (conclude_eq_success h ho)
    exact ⟨_, rfl, bitByte_high x, rfl⟩
  | matSet a r c v =>
    obtain ⟨m, -, rfl, rfl⟩ := result_of_operand_bind (conclude_eq_success h ho)
    exact ⟨m, rfl, rfl⟩
  | matGetRow a r =>
    obtain ⟨b, hb, rfl, rfl⟩ := result_of_operand_bind (conclude_eq_success h ho)
    exact ⟨b, rfl, getRow_length hb, rfl⟩
  | matMul a b | matAdd a b =>
    obtain ⟨_, -, h⟩ := except_bind_eq_ok.1 (conclude_eq_success h ho)
    obtain ⟨m, -, rfl, rfl⟩ := result_of_operand_bind h
    exact ⟨m, rfl, rfl⟩
  | matEq a b =>
    obtain ⟨_, -, h⟩ := except_bind_eq_ok.1 (conclude_eq_success h ho)
    obtain ⟨_, -, rfl, rfl⟩ := result_of_bind h
    exact ⟨_, rfl, bitByte_high _, rfl⟩
  | bpUnpack value n =>
    obtain ⟨b, hb, rfl, rfl⟩ := result_of_bind (conclude_eq_success h ho)
    obtain ⟨hlen, -⟩ := unpack_length hb
    exact ⟨b, _, rfl, rfl, by simp [SeqWires.ofBits, hlen], rfl, rfl⟩
  | bpPack seq =>
    obtain ⟨v, -, rfl, rfl⟩ := result_of_bind (conclude_eq_success h ho)
    exact ⟨v, rfl, rfl⟩
  | synLookup z =>
    cases outcome_eq_of_exec (exec_synLookup z s) h ho
    refine ⟨_, _, rfl, rfl, fun ha => ?_, rfl⟩
    obtain ⟨-, hr, hc⟩ := ha.synShape z
    simp [MatWires.ofMatrix, hr, hc]
  | hamEncode src =>
    obtain ⟨v, -, rfl, rfl⟩ := result_of_bind (conclude_eq_success h ho)
    exact ⟨v, rfl, rfl⟩
  | hamDecode cw =>
    obtain ⟨⟨nib, d'⟩, hdec, hres⟩ := except_bind_eq_ok.1 (conclude_eq_success h ho)
    cases hres
    exact ⟨nib, rfl, decodeWord_diag hdec, rfl⟩

end Sys2Proof.Machine

/-! SUPPORT. The laws of GF(2) matrices (40_binary_matrix_gf2.md section 4), and Pack and Unpack as inverses
(41_bit_packer.md R102). -/

namespace Sys2Proof

/-- A sum of selected terms, added up in their order. -/
theorem xorSum_and_eq_foldl (n : Nat) (x f : Nat → Bool) : (xorSum n fun k => x k && f k) =
    ((List.range n).filter x).foldl (fun acc k => acc ^^ f k) false := by
  induction n with
  | zero => rfl
  | succ n ih =>
    rw [xorSum_succ, ih, List.range_succ, List.filter_append, List.foldl_append]
    cases h : x n <;> simp [h]

end Sys2Proof

namespace Sys2Proof.Machine

/-! ## Sums and products of a matrix given by its elements -/

section
variable {a b : Matrix} {m n : Nat}

theorem add_ofFn_right (hr : a.rows = m) (hc : a.cols = n) (f : Nat → Nat → Bool) :
    add a (Matrix.ofFn m n f) = .ok (Matrix.ofFn m n fun i j => a.bit i j ^^ f i j) := by
  subst hr hc
  rw [add_eq_ok (a := a) (b := Matrix.ofFn a.rows a.cols f) rfl rfl]
  exact congrArg _ (Matrix.ofFn_congr fun i hi j hj => by rw [Matrix.bit_ofFn_of_lt _ hi hj])

theorem add_ofFn_ofFn (m n : Nat) (f g : Nat → Nat → Bool) :
    add (Matrix.ofFn m n f) (Matrix.ofFn m n g) = .ok (Matrix.ofFn m n fun i j => f i j ^^ g i j) := by
  rw [add_ofFn_right (a := Matrix.ofFn m n f) (m := m) (n := n) rfl rfl]
  exact congrArg _ (Matrix.ofFn_congr fun i hi j hj => by rw [Matrix.bit_ofFn_of_lt _ hi hj])

theorem matrix_add_comm (a b : Matrix) : add a b = add b a := by
  by_cases h : a.rows = b.rows ∧ a.cols = b.cols
  · obtain ⟨hr, hc⟩ := h
    rw [add_eq_ok hr hc, add_eq_ok hr.symm hc.symm, hr, hc]
    simp only [Bool.xor_comm]
  · rw [add_mismatch (by tauto), add_mismatch (by tauto)]

theorem mul_ofFn_right (h : a.cols = m) (f : Nat → Nat → Bool) : mul a (Matrix.ofFn m n f) =
    .ok (Matrix.ofFn a.rows n fun i j => xorSum a.cols fun k => a.bit i k && f k j) := by
  rw [mul_eq_ok (b := Matrix.ofFn m n f) h]
  exact congrArg _ (Matrix.ofFn_congr fun i _ j hj => xorSum_congr fun k hk => by
    rw [Matrix.bit_ofFn_of_lt (m := m) (n := n) f (h ▸ hk) hj])

theorem mul_ofFn_left (h : n = b.rows) (f : Nat → Nat → Bool) : mul (Matrix.ofFn m n f) b =
    .ok (Matrix.ofFn m b.cols fun i j => xorSum n fun k => f i k && b.bit k j) := by
  rw [mul_eq_ok (a := Matrix.ofFn m n f) h]
  exact congrArg _ (Matrix.ofFn_congr fun i hi j _ => xorSum_congr fun k hk => by
    rw [Matrix.bit_ofFn_of_lt (m := m) (n := n) f hi hk])

end

/-! ## The laws, each with both sides brought to the same elements -/

section
variable {a b c : Matrix}

theorem matrix_add_assoc (hr : a.rows = b.rows) (hc : a.cols = b.cols) (hr' : b.rows = c.rows)
    (hc' : b.cols = c.cols) : (add b c >>= add a) = (add a b >>= fun m => add m c) := by
  rw [add_eq_ok hr' hc', except_bind_ok, add_ofFn_right hr hc, add_eq_ok hr hc, except_bind_ok,
    matrix_add_comm _ c, add_ofFn_right (hr.trans hr').symm (hc.trans hc').symm, hr, hc]
  simp only [Bool.xor_assoc, Bool.xor_comm]

theorem matrix_mul_add (h : a.cols = b.rows) (hr : b.rows = c.rows) (hc : b.cols = c.cols) :
    ∃ m, (add b c >>= mul a) = .ok m ∧ (mul a b >>= fun x => mul a c >>= add x) = .ok m := by
  refine ⟨_, by rw [add_eq_ok hr hc, except_bind_ok, mul_ofFn_right h], ?_⟩
  rw [mul_eq_ok h, except_bind_ok, mul_eq_ok (h.trans hr), except_bind_ok, ← hc, add_ofFn_ofFn]
  simp only [← xorSum_xor, Bool.and_xor_distrib_left]

theorem matrix_add_mul (hr : a.rows = b.rows) (hc : a.cols = b.cols) (h : b.cols = c.rows) :
    ∃ m, (add a b >>= fun x => mul x c) = .ok m ∧ (mul a c >>= fun x => mul b c >>= add x) = .ok m := by
  refine ⟨_, by rw [add_eq_ok hr hc, except_bind_ok, mul_ofFn_left (hc.trans h)], ?_⟩
  rw [mul_eq_ok (hc.trans h), except_bind_ok, mul_eq_ok h, except_bind_ok, ← hr, ← hc, add_ofFn_ofFn]
  simp only [← xorSum_xor, Bool.and_xor_distrib_right]

theorem matrix_mul_assoc (h : a.cols = b.rows) (h' : b.cols = c.rows) :
    ∃ m, (mul b c >>= mul a) = .ok m ∧ (mul a b >>= fun x => mul x c) = .ok m := by
  refine ⟨_, by rw [mul_eq_ok h', except_bind_ok, mul_ofFn_right h], ?_⟩
  rw [mul_eq_ok h, except_bind_ok, mul_ofFn_left h']
  refine congrArg _ (Matrix.ofFn_congr fun i _ j _ => ?_)
  simp only [← xorSum_and_left, ← xorSum_and_right, Bool.and_assoc]
  exact xorSum_comm _ _ _

end

/-! ## Unpack, then Pack, and back -/

/-- Packing what Unpack answers gives the n low-order bits (R102). -/
theorem packBits_unpacked (v : Byte) {n : Nat} (hn : n ≤ 8) :
    (packBits ((List.range n).map fun i => v.getLsbD (n - 1 - i))).toNat = v.toNat % 2 ^ n := by
  refine Nat.eq_of_testBit_eq fun i => ?_
  rw [BitVec.testBit_toNat, Nat.testBit_mod_two_pow, BitVec.testBit_toNat]
  by_cases hi : i < n
  · rw [getLsbD_packBits _ (hi.trans_le hn)]
    simp [hi, show n - 1 - (n - 1 - i) = i by omega]
  · rw [decide_eq_false hi, Bool.false_and, ← BitVec.testBit_toNat]
    refine Nat.testBit_lt_two_pow ((packBits_lt _).trans_le (Nat.pow_le_pow_right Nat.two_pos ?_))
    simpa using Nat.le_of_not_lt hi

/-- Unpacking a packed sequence at its length gives the sequence (R102). -/
theorem unpack_packBits {b : List Bool} (hb : b.length ≤ 8) :
    unpack (packBits b) (BitVec.ofNat 8 b.length) = .ok b := by
  have hn : (BitVec.ofNat 8 b.length).toNat = b.length := toNat_ofNat8 hb
  rw [unpack_eq_ok (hn.trans_le hb), hn]
  refine congrArg _ (List.ext_getElem (by simp) fun j _ hj => ?_)
  simp [getLsbD_packBits_sub hb hj, hj]

/-! ## The obligations -/

/-- Settles O36: each law by the elements of its two sides. -/
theorem matrixAlgebraLaws : Obligations.MatrixAlgebraLaws := by
  refine ⟨fun a ha => ⟨add_self_eq_ok a, add_zeroMatrix_eq_ok ha⟩, matrix_add_comm,
    fun _ _ _ => matrix_add_assoc, fun _ _ _ => matrix_mul_add, fun _ _ _ => matrix_add_mul,
    fun _ _ _ => matrix_mul_assoc, fun x b hx h => ⟨_, mul_eq_ok h, hx, rfl, fun j hj => ?_⟩⟩
  rw [Matrix.bit_ofFn_of_lt _ (by omega) hj]
  exact xorSum_and_eq_foldl _ _ _

/-- Settles O39: a value is known from its low bits, a sequence from its elements. -/
theorem packUnpackInverse : Obligations.PackUnpackInverse := by
  refine fun s => ⟨fun v n hn => ⟨_, exec_bpUnpack_of_ok s (unpack_eq_ok hn), _,
    exec_bpPack_of_ok s (pack_eq_ok (by simpa using hn)), packBits_unpacked v hn, fun hlt => ?_⟩,
    fun b hb => ⟨_, exec_bpPack_of_ok s (pack_eq_ok hb), exec_bpUnpack_of_ok s (unpack_packBits hb)⟩⟩
  exact BitVec.eq_of_toNat_eq ((packBits_unpacked v hn).trans (Nat.mod_eq_of_lt hlt))

end Sys2Proof.Machine

/-! SUPPORT. The codec over any constants that meet R15: the table's weights, the syndrome, the ends of Decode
(42_syndrome_lookup_table.md, 43_hamming_encoder_8_4.md R124, 44_hamming_decoder_8_4.md). -/

namespace Sys2Proof.Machine

/-! ## Words of weight 0 and 1 -/

theorem weight_eq_zero_iff {w : Byte} : weight (rowOf w) = 0 ↔ w = 0 := by
  rw [weight_rowOf, Finset.card_eq_zero, Finset.filter_eq_empty_iff]
  constructor
  · exact fun h => eq_of_bits fun j hj => by simpa using h (Finset.mem_range.2 hj)
  · rintro rfl
    simp

theorem weight_zeroMatrix : weight (zeroMatrix 1 8) = 0 := by decide

/-- A word of weight 1 has a single 1 (R7, R9). -/
theorem exists_unitPattern_of_weight_one {w : Byte} (h : weight (rowOf w) = 1) :
    ∃ p < 8, w = 1#8 <<< p ∧ rowOf w = unitPattern (7 - p) := by
  rw [weight_rowOf, Finset.card_eq_one] at h
  obtain ⟨i, hset⟩ := h
  have hmem : ∀ k, (k < 8 ∧ w.getLsbD (7 - k) = true) ↔ k = i := fun k => by
    simpa using Finset.ext_iff.1 hset k
  have hi : i < 8 := ((hmem i).2 rfl).1
  have hrow : rowOf w = unitPattern (7 - (7 - i)) := by
    rw [show 7 - (7 - i) = i by omega]
    refine Matrix.ofFn_congr fun r _ c hc => ?_
    rw [Bool.eq_iff_iff, decide_eq_true_eq]
    exact (and_iff_right hc).symm.trans (hmem c)
  exact ⟨7 - i, by omega, rowOf_inj (hrow.trans (rowOf_shiftLeft_one _ (by omega)).symm), hrow⟩

/-! ## The syndrome and the table -/

section
variable {s : State} (ha : Admissible s)
include ha

theorem weight_entry_eq_zero_iff (z : BitVec 4) : weight (s.memReadSyn z) = 0 ↔ z = 0 := by
  constructor
  · intro hw
    obtain ⟨e, he⟩ := exists_entry_word ha z
    rw [he, weight_eq_zero_iff] at hw
    have hz := (ha.representative z).1
    have hz0 := (ha.representative 0).1
    rw [he, hw] at hz
    rw [ha.entryZero] at hz0
    exact Except.ok.inj (hz.symm.trans hz0)
  · rintro rfl
    rw [ha.entryZero, weight_zeroMatrix]

/-- A word has syndrome 0 exactly if it is a codeword (R124). -/
theorem syndromeOfWord_eq_zero_iff (w : Byte) : syndromeOfWord s w = .ok 0 ↔ IsCodeword s w := by
  rw [syndromeOfWord_eq]
  exact ⟨ha.zeroOnly w, fun ⟨_, h⟩ => syndrome_of_codeword ha h⟩

/-- The entry of a word's syndrome leads the word to a codeword (R112). -/
theorem isCodeword_xor_entry {w e : Byte} {z : BitVec 4} (hz : syndromeOf s.hTr (rowOf w) = .ok z)
    (he : s.memReadSyn z = rowOf e) : IsCodeword s (w ^^^ e) := by
  obtain ⟨z', e', hz', he', hcw, -⟩ := hamDecode_spec ha w
  cases hz.symm.trans hz'
  cases rowOf_inj (he.symm.trans he')
  exact hcw

theorem weight_entry_eq_one_iff (z : BitVec 4) : weight (s.memReadSyn z) = 1 ↔
    ∃ i < 8, syndromeOf s.hTr (unitPattern i) = .ok z ∧ s.memReadSyn z = unitPattern i := by
  constructor
  · intro hw
    obtain ⟨e, he⟩ := exists_entry_word ha z
    rw [he] at hw
    obtain ⟨p, hp, -, hrow⟩ := exists_unitPattern_of_weight_one hw
    have hz := (ha.representative z).1
    rw [he, hrow] at hz
    exact ⟨7 - p, by omega, hz, he.trans hrow⟩
  · rintro ⟨i, hi, -, he⟩
    rw [he, weight_unitPattern i hi]

/-! ## The ends of Decode -/

/-- A word at distance 0, 1 or more from the codeword to which its table entry leads. -/
theorem hamDecode_entry_cases (cw : Byte) : ∃ src c e : Byte, encodeWord s.g src = .ok c ∧ cw = c ^^^ e ∧
    (e = 0 ∨ (∃ p < 8, e = 1#8 <<< p) ∨
      exec (.hamDecode cw) s = .next (s.finish ⟨.failure .uncorrectableError, .twoBit⟩)) := by
  obtain ⟨z, e, -, he, ⟨src, hsrc⟩, -, -, htwo⟩ := hamDecode_spec ha cw
  rw [he] at htwo
  refine ⟨src, cw ^^^ e, e, hsrc, by rw [BitVec.xor_assoc, BitVec.xor_self, BitVec.xor_zero], ?_⟩
  obtain hw | hw | hw := weight_trichotomy (rowOf e)
  · exact .inl (weight_eq_zero_iff.1 hw)
  · obtain ⟨p, hp, rfl, -⟩ := exists_unitPattern_of_weight_one hw
    exact .inr (.inl ⟨p, hp, rfl⟩)
  · exact .inr (.inr (htwo hw))

/-- Another admissible state with the same generator answers the same outcome, or this one fails. -/
theorem hamDecode_agree_or_fail {s' : State} (ha' : Admissible s') (hg : s.g = s'.g) (cw : Byte) :
    (∃ o, exec (.hamDecode cw) s = .next (s.finish o) ∧ exec (.hamDecode cw) s' = .next (s'.finish o)) ∨
    exec (.hamDecode cw) s = .next (s.finish ⟨.failure .uncorrectableError, .twoBit⟩) := by
  obtain ⟨src, c, e, hc, rfl, rfl | ⟨p, hp, rfl⟩ | hfail⟩ := hamDecode_entry_cases ha cw
  · rw [show c ^^^ 0 = c from BitVec.xor_zero]
    exact .inl ⟨_, hamDecode_codeword ha hc, hamDecode_codeword ha' (hg ▸ hc)⟩
  · exact .inl ⟨_, hamDecode_codeword_flip ha hc hp, hamDecode_codeword_flip ha' (hg ▸ hc) hp⟩
  · exact .inr hfail

end

/-! ## The obligations -/

/-- Settles O42: an entry weighs 0 only as the zero pattern, and 1 only as the error it stands for. -/
theorem tableEntryWeights : Obligations.TableEntryWeights := by
  refine fun s ha z => ⟨weight_entry_eq_zero_iff ha z, weight_entry_eq_one_iff ha z, fun w hw => ?_⟩
  rw [syndromeOfWord_eq] at hw
  obtain ⟨e, he⟩ := exists_entry_word ha z
  exact ⟨e, he, isCodeword_xor_entry ha hw he⟩

/-- Settles O47: item 3 of R15, and Decode of a codeword. -/
theorem zeroSyndromeExactlyForCodewords : Obligations.ZeroSyndromeExactlyForCodewords := fun _ ha =>
  ⟨syndromeOfWord_eq_zero_iff ha, fun _ _ hcw => hamDecode_codeword ha hcw⟩

/-- Settles O48: the syndrome by its bits, and one of three ends by the weight of its entry. -/
theorem decodeResult : Obligations.DecodeResult := by
  intro s cw ha
  obtain ⟨z, e, hz, he, hcw, hnone, hone, htwo⟩ := hamDecode_spec ha cw
  obtain ⟨z', hz', hbits⟩ := syndrome_rowOf_spec ha cw
  cases hz.symm.trans hz'
  refine ⟨rfl, z, e, hbits, he, hcw, fun hw => ?_, hone, htwo⟩
  have he0 : e = 0 := weight_eq_zero_iff.1 (he ▸ hw)
  exact ⟨he0, by rw [hnone hw, he0, show cw ^^^ 0 = cw from BitVec.xor_zero]⟩

/-- Settles O52: within one error of a codeword both states answer its source word; elsewhere both fail. -/
theorem decodeSameForEveryAdmissibleTable : Obligations.DecodeSameForEveryAdmissibleTable := by
  intro s s' cw ha ha' hg o
  obtain ⟨o', h, h'⟩ : ∃ o', exec (.hamDecode cw) s = .next (s.finish o') ∧
      exec (.hamDecode cw) s' = .next (s'.finish o') := by
    obtain h | hfail := hamDecode_agree_or_fail ha ha' hg cw
    · exact h
    · obtain ⟨o', h', h⟩ | hfail' := hamDecode_agree_or_fail ha' ha hg.symm cw
      · exact ⟨o', h, h'⟩
      · exact ⟨_, hfail, hfail'⟩
  rw [h, h']
  simp [State.finish_inj]

end Sys2Proof.Machine

/-! SUPPORT. The codec with the literals of this spec: codewords, bit equations, counts, and what Decode answers
beyond two errors (43_hamming_encoder_8_4.md R121, R123, 44_hamming_decoder_8_4.md R132, R136, R138). -/

namespace Sys2Proof.Machine

/-! ## Linearity and parity -/

/-- Encode is linear, with any 4x8 generator (R123). -/
theorem encodeWord_xor {g : Matrix} (hr : g.rows = 4) (hc : g.cols = 8) {a b x y : Byte}
    (hx : encodeWord g a = .ok x) (hy : encodeWord g b = .ok y) : encodeWord g (a ^^^ b) = .ok (x ^^^ y) := by
  obtain ⟨x', hx', xbits⟩ := encodeWord_spec hr hc a
  obtain ⟨y', hy', ybits⟩ := encodeWord_spec hr hc b
  obtain ⟨w, hw, wbits⟩ := encodeWord_spec hr hc (a ^^^ b)
  cases hx.symm.trans hx'
  cases hy.symm.trans hy'
  rw [hw]
  refine congrArg _ (eq_of_bits fun j hj => ?_)
  rw [show 8 - 1 - j = 7 - j by omega, BitVec.getLsbD_xor, wbits j hj, xbits j hj, ybits j hj, ← xorSum_xor]
  simp only [BitVec.getLsbD_xor, Bool.and_xor_distrib_right]

theorem ne_zero_of_weight {w : Byte} (h : weight (rowOf w) ≠ 0) : w ≠ 0 := fun h0 => h (weight_eq_zero_iff.2 h0)

theorem Admissible.encodeWord_xor {s : State} (ha : Admissible s) {a b x y : Byte}
    (hx : encodeWord s.g a = .ok x) (hy : encodeWord s.g b = .ok y) :
    encodeWord s.g (a ^^^ b) = .ok (x ^^^ y) := by
  obtain ⟨-, hr, hc⟩ := ha.gShape
  exact Machine.encodeWord_xor hr hc hx hy

/-- A sum over GF(2) is the parity of its count of ones. -/
theorem card_filter_mod_two (n : Nat) (f : Nat → Bool) :
    ((Finset.range n).filter fun j => f j = true).card % 2 = (xorSum n f).toNat := by
  induction n with
  | zero => rfl
  | succ n ih =>
    rw [Finset.range_add_one, Finset.filter_insert, xorSum_succ]
    cases hf : f n
    · simpa using ih
    · rw [if_pos rfl, Finset.card_insert_of_notMem (by simp), Nat.add_mod, ih]
      cases xorSum n f <;> rfl

theorem weight_xor_mod_two (a b : Byte) :
    weight (rowOf (a ^^^ b)) % 2 = (weight (rowOf a) + weight (rowOf b)) % 2 := by
  rw [Nat.add_mod]
  simp only [weight_rowOf, card_filter_mod_two, BitVec.getLsbD_xor, xorSum_xor]
  cases xorSum 8 fun j => a.getLsbD (7 - j) <;> cases xorSum 8 fun j => b.getLsbD (7 - j) <;> rfl

/-! ## The sixteen codewords (R123) -/

/-- The codewords of the source words 0 to 15, as R123 lists them. -/
def codewordBytes : List Byte :=
  [0x00, 0x1E, 0x2D, 0x33, 0x4B, 0x55, 0x66, 0x78, 0x87, 0x99, 0xAA, 0xB4, 0xCC, 0xD2, 0xE1, 0xFF]

theorem encodeWord_config :
    ∀ n < 16, encodeWord Config.g (BitVec.ofNat 8 n) = .ok (codewordBytes.getD n 0) := by decide

theorem weight_codewordBytes : ∀ w ∈ codewordBytes, w = 0 ∨ weight (rowOf w) = 4 ∨ weight (rowOf w) = 8 := by
  decide

section
variable {s : State} (hs : HasSpecConstants s)
include hs

theorem HasSpecConstants.mem_codewordBytes {w : Byte} (h : IsCodeword s w) : w ∈ codewordBytes := by
  obtain ⟨src, hsrc⟩ := h
  have hlow : src.extractLsb' 0 4 = (BitVec.ofNat 8 (src.toNat % 16)).extractLsb' 0 4 :=
    BitVec.eq_of_toNat_eq (by simp [BitVec.extractLsb'_toNat])
  have hlt : src.toNat % 16 < 16 := Nat.mod_lt _ (by decide)
  rw [hs.1, encodeWord_congr _ hlow, encodeWord_config _ hlt] at hsrc
  cases hsrc
  rw [List.getD_eq_getElem _ _ hlt]
  exact List.getElem_mem hlt

/-- The weights of the code: 0, 4 and 8. -/
theorem HasSpecConstants.codeword_weight {w : Byte} (h : IsCodeword s w) :
    w = 0 ∨ weight (rowOf w) = 4 ∨ weight (rowOf w) = 8 :=
  weight_codewordBytes w (hs.mem_codewordBytes h)

theorem HasSpecConstants.entry_weight_le_two (z : BitVec 4) : weight (s.memReadSyn z) ≤ 2 := by
  have h : ∀ z : BitVec 4, weight (rowOf (syndromeBytes.getD z.toNat 0)) ≤ 2 := by decide
  rw [hs.memReadSyn_eq_rowOf]
  exact h z

/-! ## Bits of the codeword and of the syndrome -/

/-- The codeword, bit by bit (R121). -/
theorem HasSpecConstants.encodeWord_bits (src : Byte) : ∃ cw : Byte, encodeWord s.g src = .ok cw ∧
    ∀ j < 8, cw.getLsbD (7 - j) = xorSum 4 fun i => src.getLsbD (3 - i) && Config.g.bit i j :=
  hs.1 ▸ encodeWord_spec (g := Config.g) rfl rfl src

/-- The syndrome index, bit by bit (R132). -/
theorem HasSpecConstants.syndromeOfWord_bits (cw : Byte) : ∃ z : BitVec 4, syndromeOfWord s cw = .ok z ∧
    ∀ j < 4, z.getLsbD (3 - j) = xorSum 8 fun k => cw.getLsbD (7 - k) && Config.hTr.bit k j := by
  obtain ⟨-, hh, -⟩ := id hs
  rw [syndromeOfWord_eq, ← hh]
  exact syndrome_rowOf_spec hs.admissible cw

/-! ## A codeword with a mask -/

/-- A mask leads through its table entry to a codeword; mask and entry have the same parity (R138). -/
theorem HasSpecConstants.exists_entry_of_mask (mask : Byte) : ∃ (z : BitVec 4) (e : Byte),
    syndromeOf s.hTr (rowOf mask) = .ok z ∧ s.memReadSyn z = rowOf e ∧ IsCodeword s (mask ^^^ e) ∧
    weight (rowOf e) ≤ 2 ∧ weight (rowOf mask) % 2 = weight (rowOf e) % 2 := by
  obtain ⟨z, hz, -⟩ := syndrome_rowOf_spec hs.admissible mask
  obtain ⟨e, he⟩ := exists_entry_word hs.admissible z
  have hcw := isCodeword_xor_entry hs.admissible hz he
  refine ⟨z, e, hz, he, hcw, he ▸ hs.entry_weight_le_two z, ?_⟩
  have hparity := weight_xor_mod_two mask e
  have heven : weight (rowOf (mask ^^^ e)) % 2 = 0 := by
    obtain h0 | h4 | h8 := hs.codeword_weight hcw
    · rw [h0, weight_eq_zero_iff.2 rfl]
    · rw [h4]
    · rw [h8]
  omega

variable {src cw : Byte} (hcw : encodeWord s.g src = .ok cw)
include hcw

/-- Another codeword than the one that was sent has another source word. -/
theorem HasSpecConstants.xor_codeword_top_ne {m : Byte} (hm : IsCodeword s m) (hne : m ≠ 0) :
    (cw ^^^ m).extractLsb' 4 4 ≠ src.extractLsb' 0 4 := by
  have ha := hs.admissible
  obtain ⟨src', hm⟩ := hm
  obtain ⟨-, hr, hc⟩ := ha.gShape
  rw [encodeWord_top ha (ha.encodeWord_xor hcw hm), BitVec.extractLsb'_xor]
  intro heq
  have hlow : src'.extractLsb' 0 4 = 0 := by simpa using heq
  refine hne ?_
  rw [encodeWord_congr s.g (src' := 0) hlow, encodeWord_zero hr hc] at hm
  exact (Except.ok.inj hm).symm

/-- A mask of odd weight above 1 is taken for a single error (R138). -/
theorem HasSpecConstants.hamDecode_odd_mask {mask : Byte} (hodd : weight (rowOf mask) % 2 = 1)
    (hw : weight (rowOf mask) ≠ 1) :
    ∃ nib, exec (.hamDecode (cw ^^^ mask)) s = .next (s.finish ⟨.success (.nibble nib), .oneBit⟩) ∧
      nib ≠ src.extractLsb' 0 4 := by
  obtain ⟨z, e, hz, he, hm, hle, hparity⟩ := hs.exists_entry_of_mask mask
  have hone : weight (rowOf e) = 1 := by omega
  obtain ⟨-, hdec, -⟩ := hamDecode_of_syndrome hs.admissible (syndrome_codeword_xor hs.admissible hcw hz) he
  refine ⟨_, hdec (he ▸ hone), ?_⟩
  rw [BitVec.xor_assoc]
  refine hs.xor_codeword_top_ne hcw hm fun h0 => hw ?_
  rw [BitVec.xor_eq_zero_iff.1 h0, hone]

/-- A mask that is a codeword is not seen (R138). -/
theorem HasSpecConstants.hamDecode_codeword_mask {mask : Byte} (hm : IsCodeword s mask) (hne : mask ≠ 0) :
    ∃ nib, exec (.hamDecode (cw ^^^ mask)) s = .next (s.finish ⟨.success (.nibble nib), .none⟩) ∧
      nib ≠ src.extractLsb' 0 4 := by
  have ha := hs.admissible
  obtain ⟨src', hsrc'⟩ := id hm
  have hsum := ha.encodeWord_xor hcw hsrc'
  refine ⟨_, hamDecode_codeword ha hsum, ?_⟩
  rw [← encodeWord_top ha hsum]
  exact hs.xor_codeword_top_ne hcw hm hne

/-- A mask of even weight that is no codeword is seen as a double error (R138). -/
theorem HasSpecConstants.hamDecode_even_mask {mask : Byte} (heven : weight (rowOf mask) % 2 = 0)
    (hm : ¬ IsCodeword s mask) : exec (.hamDecode (cw ^^^ mask)) s =
      .next (s.finish ⟨.failure .uncorrectableError, .twoBit⟩) := by
  obtain ⟨z, e, hz, he, hm', hle, hparity⟩ := hs.exists_entry_of_mask mask
  have hne : weight (rowOf e) ≠ 0 := by
    intro h0
    rw [weight_eq_zero_iff.1 h0, show mask ^^^ 0 = mask from BitVec.xor_zero] at hm'
    exact hm hm'
  have htwo : 2 ≤ weight (rowOf e) := by omega
  obtain ⟨-, -, hdec⟩ := hamDecode_of_syndrome hs.admissible (syndrome_codeword_xor hs.admissible hcw hz) he
  exact hdec (he ▸ htwo)

end

/-! ## Counts over all words (R136, R138) -/

/-- How many of the 256 received words get an outcome of a kind, from the constants of reset. -/
def outcomeCount (kind : Response → Bool) : Nat :=
  (List.range 256).countP fun n => (outcomeOf (.hamDecode (BitVec.ofNat 8 n)) State.reset).any kind

set_option maxRecDepth 20000 in
theorem outcomeCount_clean : outcomeCount (fun o => o.succeeded && decide (o.diag = .none)) = 16 := by decide

set_option maxRecDepth 20000 in
theorem outcomeCount_corrected : outcomeCount (fun o => o.succeeded && decide (o.diag = .oneBit)) = 128 := by
  decide

set_option maxRecDepth 20000 in
theorem outcomeCount_uncorrectable :
    outcomeCount (fun o => decide (o = ⟨.failure .uncorrectableError, .twoBit⟩)) = 112 := by decide

/-- Whether a word of 8 bits is a result of Encode with the literal G. -/
def isCodewordMask (n : Nat) : Bool :=
  (List.range 16).any fun m => decide (encodeWord Config.g (BitVec.ofNat 8 m) = .ok (BitVec.ofNat 8 n))

set_option maxRecDepth 20000 in
theorem count_isCodewordMask : ((List.range 256).countP fun n =>
    decide (weight (rowOf (BitVec.ofNat 8 n)) = 4) && isCodewordMask n) = 14 := by decide

set_option maxRecDepth 20000 in
theorem count_not_isCodewordMask : ((List.range 256).countP fun n =>
    decide (weight (rowOf (BitVec.ofNat 8 n)) = 4) && !isCodewordMask n) = 56 := by decide

/-! ## The obligations -/

/-- Settles O44: the columns of the literal G select the source bits. -/
theorem encodeBitEquations : Obligations.EncodeBitEquations := by
  intro s src hs
  obtain ⟨cw, hcw, hbits⟩ := hs.encodeWord_bits src
  refine ⟨cw, exec_hamEncode_of_ok s hcw, ?_⟩
  have hcolumn : ∀ j : Fin 8, cw.getLsbD (7 - j) =
      xorSum 4 fun i => src.getLsbD (3 - i) && Config.g.bit i j := fun j => hbits j j.isLt
  simpa [Fin.forall_fin_succ, Matrix.bit, Config.g, Config.bits] using hcolumn

/-- Settles O46: the list word by word, linearity by the bits, the distance by the weights of the code. -/
theorem codewordListLinearityDistance : Obligations.CodewordListLinearityDistance := by
  intro s hs
  refine ⟨fun n hn => exec_hamEncode_of_ok s (hs.1 ▸ encodeWord_config n hn), fun _ _ _ _ => hs.admissible.encodeWord_xor,
    fun x y ⟨a, hx⟩ ⟨b, hy⟩ hne => ?_⟩
  obtain h0 | h4 | h8 := hs.codeword_weight ⟨_, hs.admissible.encodeWord_xor hx hy⟩
  · exact absurd (BitVec.xor_eq_zero_iff.1 h0) hne
  · exact h4.ge
  · omega

/-- Settles O49: a codeword adds syndrome 0; the columns of the literal H_TR select the received bits. -/
theorem syndromeDependsOnlyOnTheError : Obligations.SyndromeDependsOnlyOnTheError := by
  refine ⟨fun s c0 e ha ⟨src, hsrc⟩ => ?_, fun s cw hs => ?_⟩
  · obtain ⟨z, hz, -⟩ := syndrome_rowOf_spec ha e
    rw [syndromeOfWord_eq, syndromeOfWord_eq, syndrome_codeword_xor ha hsrc hz, hz]
  · obtain ⟨z, hz, hbits⟩ := hs.syndromeOfWord_bits cw
    have hcolumn : ∀ j : Fin 4, z.getLsbD (3 - j) =
        xorSum 8 fun k => cw.getLsbD (7 - k) && Config.hTr.bit k j := fun j => hbits j j.isLt
    exact ⟨z, hz, by simpa [Fin.forall_fin_succ, Matrix.bit, Config.hTr, Config.bits] using hcolumn⟩

/-- Settles O50: the three ends of Decode, of which an entry of weight at most 1 excludes the failure; the
counts by evaluation. -/
theorem decodeTerminalOutcomes : Obligations.DecodeTerminalOutcomes := by
  refine ⟨fun s cw ha => ⟨?_, fun z hz hle => ?_⟩, outcomeCount_clean, outcomeCount_corrected,
    outcomeCount_uncorrectable⟩
  · obtain ⟨nib, h⟩ | ⟨nib, h⟩ | h := hamDecode_cases ha cw
    · exact .inl ⟨nib, _, h⟩
    · exact .inl ⟨nib, _, h⟩
    · exact .inr ⟨_, h⟩
  · have hw : weight (s.memReadSyn z) ≤ 1 := by
      obtain rfl | hw := hle
      · exact ((weight_entry_eq_zero_iff ha 0).2 rfl).trans_le (Nat.zero_le 1)
      · exact hw
    rw [syndromeOfWord_eq] at hz
    obtain ⟨e, he⟩ := exists_entry_word ha z
    obtain ⟨hnone, hone, -⟩ := hamDecode_of_syndrome ha hz he
    obtain h0 | h1 := Nat.le_one_iff_eq_zero_or_eq_one.1 hw
    · exact ⟨_, _, hnone h0⟩
    · exact ⟨_, _, hone h1⟩

/-- Settles O53: a mask of odd weight, a mask that is a codeword, and any other; the counts by evaluation. -/
theorem outcomesBeyondTwoErrors : Obligations.OutcomesBeyondTwoErrors := by
  refine ⟨fun s src cw mask hs hcw => ⟨fun hw => ?_, fun hm => ?_, fun hm => ?_⟩, count_isCodewordMask,
    count_not_isCodewordMask⟩
  · exact hs.hamDecode_odd_mask hcw (by omega) (by omega)
  · obtain ⟨hw, hm⟩ | rfl := hm
    · exact hs.hamDecode_codeword_mask hcw hm (ne_zero_of_weight (by omega))
    · exact hs.hamDecode_codeword_mask hcw ⟨15, hs.1 ▸ encodeWord_config 15 (by decide)⟩ (by decide)
  · obtain ⟨hw, hm⟩ | hw := hm
    · exact hs.hamDecode_even_mask hcw (by omega) hm
    · refine hs.hamDecode_even_mask hcw (by omega) fun hm => ?_
      obtain h0 | h4 | h8 := hs.codeword_weight hm
      · exact ne_zero_of_weight (by omega) h0
      · omega
      · omega

end Sys2Proof.Machine
